-- ==== Sys2Proof/Word.lean ====
section
/-! DEFINITION. The two word types of BASECODEC: a byte of a buffer and a command word (both 8 bits). -/

namespace Sys2Proof

/-- One byte, 0 to 255 (`00_scope.md`, Notation; R40: the addressable unit of every space is the 8-bit byte). -/
abbrev Byte := BitVec 8

/-- One command word, format `CMD8` (R60). -/
abbrev CmdWord := BitVec 8

end Sys2Proof
end

