-- ==== Sys2Proof/Syntax.lean ====
section
/-! DEFINITION. The twelve commands (R63), one constructor per row of the opcode table. -/

namespace Sys2Proof

/-- The commands of R63. None has an operand: source and destination are implicit (R65). -/
inductive Instr where
  /-- Base16 encode (R95). -/
  | enc16
  /-- Base32 encode (R97). -/
  | enc32
  /-- Base58 encode (R124). -/
  | enc58
  /-- Base62 encode (R126). -/
  | enc62
  /-- Base64 encode (R99). -/
  | enc64
  /-- Base85 encode (R141). -/
  | enc85
  /-- Base16 decode (R96). -/
  | dec16
  /-- Base32 decode (R98). -/
  | dec32
  /-- Base58 decode (R125). -/
  | dec58
  /-- Base62 decode (R127). -/
  | dec62
  /-- Base64 decode (R100). -/
  | dec64
  /-- Base85 decode (R142). -/
  | dec85
  deriving DecidableEq, Repr

/-- The format of a command, named by its radix, which is also its tag `FMT` (R62). -/
def Instr.radix : Instr → Nat
  | .enc16 => 16
  | .enc32 => 32
  | .enc58 => 58
  | .enc62 => 62
  | .enc64 => 64
  | .enc85 => 85
  | .dec16 => 16
  | .dec32 => 32
  | .dec58 => 58
  | .dec62 => 62
  | .dec64 => 64
  | .dec85 => 85

/-- The direction of a command: true for decode, `DIR` = 1 (R61). -/
def Instr.decodes : Instr → Bool
  | .enc16 => false
  | .enc32 => false
  | .enc58 => false
  | .enc62 => false
  | .enc64 => false
  | .enc85 => false
  | .dec16 => true
  | .dec32 => true
  | .dec58 => true
  | .dec62 => true
  | .dec64 => true
  | .dec85 => true

/-- The mnemonic: `ENC` or `DEC` followed by the radix in decimal (R67). -/
def Instr.mnemonic : Instr → String
  | .enc16 => "ENC16"
  | .enc32 => "ENC32"
  | .enc58 => "ENC58"
  | .enc62 => "ENC62"
  | .enc64 => "ENC64"
  | .enc85 => "ENC85"
  | .dec16 => "DEC16"
  | .dec32 => "DEC32"
  | .dec58 => "DEC58"
  | .dec62 => "DEC62"
  | .dec64 => "DEC64"
  | .dec85 => "DEC85"

end Sys2Proof
end

