-- ==== Sys2Proof/Decode.lean ====
section
/-! DEFINITION. The command decoder (R60 to R64), total on all 256 words and rejecting by name, and after it the
encoder. -/

namespace Sys2Proof

/-- Why a word is no command (R64): its tag is not one of the six radices, whatever its direction. -/
inductive DecodeError where
  | unsupportedFormat (dir : BitVec 1) (fmt : BitVec 7)
  deriving DecidableEq, Repr

/-- `CMD.DIR`, bit 7 (R60, R61). -/
def dirField (w : CmdWord) : BitVec 1 := w.extractLsb' 7 1

/-- `CMD.FMT`, bits 6 to 0 (R60, R62). -/
def fmtField (w : CmdWord) : BitVec 7 := w.extractLsb' 0 7

/-- The command with the given direction and tag, the tag read as an unsigned number (R62, R63). -/
def commandOf (decodes : Bool) (tag : Nat) : Option Instr :=
  match tag with
  | 16 => some (if decodes then .dec16 else .enc16)
  | 32 => some (if decodes then .dec32 else .enc32)
  | 58 => some (if decodes then .dec58 else .enc58)
  | 62 => some (if decodes then .dec62 else .enc62)
  | 64 => some (if decodes then .dec64 else .enc64)
  | 85 => some (if decodes then .dec85 else .enc85)
  | _ => none

/-- The decoder (R62): `dir = CMD[7:7]`, `fmt = CMD[6:0]`. -/
def decode (w : CmdWord) : Except DecodeError Instr :=
  match commandOf (decide (dirField w = 1#1)) (fmtField w).toNat with
  | some i => .ok i
  | none => .error (.unsupportedFormat (dirField w) (fmtField w))

/-- The instruction in a table word: a command is one byte (R66), so the first byte is given to the decoder and a
number that does not fit one byte is no command. -/
def decodeTableWord (nbits w : Nat) : Option Instr :=
  let w := w % 2 ^ nbits
  if w < 256 then
    match decode (BitVec.ofNat 8 w) with
    | .ok i => some i
    | .error _ => none
  else none

/-- The encoder, from the `DIR` and `FMT` columns of R63: `DIR` in bit 7, the radix in bits 6 to 0. -/
def encode (i : Instr) : CmdWord :=
  (BitVec.ofBool i.decodes ++ BitVec.ofNat 7 i.radix : BitVec 8)

end Sys2Proof
end

