-- ==== Sys2Proof/Config.lean ====
section
/-! DEFINITION. What one BASECODEC instance fixes for its life (the parameters of R4), and the free values. -/

namespace Sys2Proof

/-- The six alphabet tables `ALPHA_r` (R21): element `i` of each list is the symbol of digit `i`. -/
structure Alphabets where
  alpha16 : List Byte
  alpha32 : List Byte
  alpha58 : List Byte
  alpha62 : List Byte
  alpha64 : List Byte
  alpha85 : List Byte
  deriving DecidableEq, Repr

/-- The registers, reached by name (R40 (1)). -/
inductive HostReg where
  | cmd
  | ilen
  | olen
  | status
  deriving DecidableEq, Repr

/-- What the host reaches by name and index (R17, R50): a register, or one byte of a buffer. -/
inductive Place where
  | reg (r : HostReg)
  | ibuf (i : Nat)
  | obuf (j : Nat)
  deriving DecidableEq, Repr

/-- One entry of `REGMAP`: a register at a bus address, or the bytes of a buffer from index `first` on at the bus
addresses from `base` on, `count` of them (`none`: without end). -/
inductive BusWindow where
  | reg (address : Nat) (r : HostReg)
  | ibuf (base first : Nat) (count : Option Nat)
  | obuf (base first : Nat) (count : Option Nat)
  deriving DecidableEq, Repr

/-- The parameters of R4 that are left open, `none` meaning unbounded. They are fixed for the life of the
instance (R5). They stand in `State` as one field that no step changes, so that a statement about every state is a
statement about every choice of them (entry 4). -/
structure Config where
  /-- `IBUF_CAP`, bytes the input buffer holds (R4, D8). -/
  ibufCap : Option Nat
  /-- `OBUF_CAP`, bytes the output buffer holds (R4, D8). -/
  obufCap : Option Nat
  /-- `ACC_CAP`, digits the big-integer accumulator holds (R4, D8). -/
  accCap : Option Nat
  /-- `LEN_W`, width in bits of `ILEN` and `OLEN`; `none` is the unbounded naturals that R4 allows (D27). -/
  lenW : Option Nat
  /-- `REGMAP`, the bus addresses of the registers and buffers (R4, R50, D22; entry 12). -/
  regmap : List BusWindow
  /-- The contents of the table store (R21, R40 (4)). -/
  alphabets : Alphabets
  deriving DecidableEq, Repr

/-- FREE VALUE (R36, U3): the byte that the n-th read of a byte with no specified value returns. It has no body:
"a model must not give the byte a value that a proof can use". Two reads take two numbers, so they may differ.
Entry 3; safe. -/
opaque Config.freeByte : Nat → Byte

end Sys2Proof
end

