-- ==== Sys2Proof/Machine/Moves.lean ====
section
/-! DEFINITION. The host's moves (R17, R40, R170) and the lines of a host script (R68). -/

namespace Sys2Proof.Machine

/-- One move of the host, or reset by the platform. The three writes to read-only state are moves too: they are
ignored (R13, R14, R16). -/
inductive HostMove where
  /-- Reset, an input of the block (R170). -/
  | reset
  /-- A write of `CMD`, which runs a command (R80). -/
  | writeCmd (w : CmdWord)
  /-- A write of `ILEN` (R12). -/
  | writeIlen (n : Nat)
  /-- A write of one byte of `IBUF` (R15). -/
  | writeIbuf (i : Nat) (v : Byte)
  /-- A write to `OLEN`, ignored (R13). -/
  | writeOlen (n : Nat)
  /-- A write to `STATUS`, ignored (R14). -/
  | writeStatus (v : Byte)
  /-- A write to one byte of `OBUF`, ignored (R16). -/
  | writeObuf (j : Nat) (v : Byte)
  /-- A read of a register (R17). -/
  | readReg (r : HostReg)
  /-- A read of one byte of `IBUF` (R17). -/
  | readIbuf (i : Nat)
  /-- A read of one byte of `OBUF` (R17). -/
  | readObuf (j : Nat)
  /-- A read at a bus address (R50). -/
  | busRead (addr : Nat)
  /-- A write at a bus address (R50). -/
  | busWrite (addr v : Nat)
  /-- The pseudo-operation `MOVE`: the host copies the result back as input (R68). -/
  | move
  deriving DecidableEq, Repr

/-- The action lines of a host script (R68). `EXPECT` lines are no actions: see `State.ExpectOk`. -/
inductive ScriptLine where
  | reset
  | load (data : List Byte)
  | setlen (k : Nat)
  | cmd (w : CmdWord)
  | move
  deriving DecidableEq, Repr

/-- `LOAD`'s byte writes from index `i` on, in rising order (R68). -/
def loadMoves : Nat → List Byte → List HostMove
  | _, [] => []
  | i, v :: vs => .writeIbuf i v :: loadMoves (i + 1) vs

/-- The moves a script line stands for (R68): `LOAD` writes the bytes, then `ILEN`. -/
def ScriptLine.moves : ScriptLine → List HostMove
  | .reset => [.reset]
  | .load data => loadMoves 0 data ++ [.writeIlen data.length]
  | .setlen k => [.writeIlen k]
  | .cmd w => [.writeCmd w]
  | .move => [.move]

/-- The moves of a script, run in order (R68). -/
def scriptMoves (script : List ScriptLine) : List HostMove := script.flatMap ScriptLine.moves

end Sys2Proof.Machine
end

