-- ==== Sys2Proof/Machine/Tables.lean ====
section
/-! DEFINITION. The table store: the default alphabets (R24 to R29), the inverse lookup (R22), the pad symbol (R23),
the whitespace set (R146), and the capacity test of the parameters (R4). -/

namespace Sys2Proof.Machine

/-- The bytes with the given codes. -/
def bytes (codes : List Nat) : List Byte := codes.map (BitVec.ofNat 8)

/-- Default `ALPHA16` (R24): `0` to `9`, `A` to `F`. -/
def defaultAlpha16 : List Byte :=
  bytes [0x30, 0x31, 0x32, 0x33, 0x34, 0x35, 0x36, 0x37] ++
  bytes [0x38, 0x39, 0x41, 0x42, 0x43, 0x44, 0x45, 0x46]

/-- Default `ALPHA32` (R25): `A` to `Z`, `2` to `7`. -/
def defaultAlpha32 : List Byte :=
  bytes [0x41, 0x42, 0x43, 0x44, 0x45, 0x46, 0x47, 0x48] ++
  bytes [0x49, 0x4A, 0x4B, 0x4C, 0x4D, 0x4E, 0x4F, 0x50] ++
  bytes [0x51, 0x52, 0x53, 0x54, 0x55, 0x56, 0x57, 0x58] ++
  bytes [0x59, 0x5A, 0x32, 0x33, 0x34, 0x35, 0x36, 0x37]

/-- Default `ALPHA64` (R26): `A` to `Z`, `a` to `z`, `0` to `9`, `+`, `/`. -/
def defaultAlpha64 : List Byte :=
  bytes [0x41, 0x42, 0x43, 0x44, 0x45, 0x46, 0x47, 0x48] ++
  bytes [0x49, 0x4A, 0x4B, 0x4C, 0x4D, 0x4E, 0x4F, 0x50] ++
  bytes [0x51, 0x52, 0x53, 0x54, 0x55, 0x56, 0x57, 0x58] ++
  bytes [0x59, 0x5A, 0x61, 0x62, 0x63, 0x64, 0x65, 0x66] ++
  bytes [0x67, 0x68, 0x69, 0x6A, 0x6B, 0x6C, 0x6D, 0x6E] ++
  bytes [0x6F, 0x70, 0x71, 0x72, 0x73, 0x74, 0x75, 0x76] ++
  bytes [0x77, 0x78, 0x79, 0x7A, 0x30, 0x31, 0x32, 0x33] ++
  bytes [0x34, 0x35, 0x36, 0x37, 0x38, 0x39, 0x2B, 0x2F]

/-- Default `ALPHA58` (R27): digits without `0`, capitals without `I` and `O`, small letters without `l`. -/
def defaultAlpha58 : List Byte :=
  bytes [0x31, 0x32, 0x33, 0x34, 0x35, 0x36, 0x37, 0x38] ++
  bytes [0x39, 0x41, 0x42, 0x43, 0x44, 0x45, 0x46, 0x47] ++
  bytes [0x48, 0x4A, 0x4B, 0x4C, 0x4D, 0x4E, 0x50, 0x51] ++
  bytes [0x52, 0x53, 0x54, 0x55, 0x56, 0x57, 0x58, 0x59] ++
  bytes [0x5A, 0x61, 0x62, 0x63, 0x64, 0x65, 0x66, 0x67] ++
  bytes [0x68, 0x69, 0x6A, 0x6B, 0x6D, 0x6E, 0x6F, 0x70] ++
  bytes [0x71, 0x72, 0x73, 0x74, 0x75, 0x76, 0x77, 0x78] ++
  bytes [0x79, 0x7A]

/-- Default `ALPHA62` (R28): `0` to `9`, `A` to `Z`, `a` to `z`. -/
def defaultAlpha62 : List Byte :=
  bytes [0x30, 0x31, 0x32, 0x33, 0x34, 0x35, 0x36, 0x37] ++
  bytes [0x38, 0x39, 0x41, 0x42, 0x43, 0x44, 0x45, 0x46] ++
  bytes [0x47, 0x48, 0x49, 0x4A, 0x4B, 0x4C, 0x4D, 0x4E] ++
  bytes [0x4F, 0x50, 0x51, 0x52, 0x53, 0x54, 0x55, 0x56] ++
  bytes [0x57, 0x58, 0x59, 0x5A, 0x61, 0x62, 0x63, 0x64] ++
  bytes [0x65, 0x66, 0x67, 0x68, 0x69, 0x6A, 0x6B, 0x6C] ++
  bytes [0x6D, 0x6E, 0x6F, 0x70, 0x71, 0x72, 0x73, 0x74] ++
  bytes [0x75, 0x76, 0x77, 0x78, 0x79, 0x7A]

/-- Default `ALPHA85` (R29): entry `i` is the byte `0x21 + i`. -/
def defaultAlpha85 : List Byte := bytes ((List.range 85).map (0x21 + ·))

/-- The default tables (D10, entry 5). -/
def defaultAlphabets : Alphabets where
  alpha16 := defaultAlpha16
  alpha32 := defaultAlpha32
  alpha58 := defaultAlpha58
  alpha62 := defaultAlpha62
  alpha64 := defaultAlpha64
  alpha85 := defaultAlpha85

/-- The parameters that `State.reset` takes: every capacity unbounded, natural-number lengths, no bus
address, the default tables (entries 4, 5, 6, 12). -/
def defaultConfig : Config where
  ibufCap := none
  obufCap := none
  accCap := none
  lenW := none
  regmap := []
  alphabets := defaultAlphabets

/-- The pad symbol `PAD`, `=` (R23). -/
def PAD : Byte := 0x3D#8

/-- The whitespace set `WS85`: space, tab, CR, LF (R4, R146). -/
def WS85 : List Byte := bytes [0x20, 0x09, 0x0D, 0x0A]

/-- `ALPHA_r[d]`. A digit the operations form is always less than `r`, the table's length (R30 (a)), so the byte
named for an index outside the table is read by no instance that meets R30 (entry 14). -/
def symbol (table : List Byte) (d : Nat) : Byte := table.getD d 0#8

/-- `INV_r(c)` (R22): the index of `c` in the table, `none` for `NOTFOUND`. -/
def inverse : List Byte → Byte → Option Nat
  | [], _ => none
  | a :: table, c => if a = c then some 0 else (inverse table c).map (· + 1)

/-- The symbols of a digit sequence. -/
def symbols (table : List Byte) (D : List Nat) : List Byte := D.map (symbol table)

/-- The digits a symbol sequence stands for, `none` when some symbol has none (R22). -/
def lookupAll (table : List Byte) : List Byte → Option (List Nat)
  | [] => some []
  | c :: cs =>
    match inverse table c, lookupAll table cs with
    | some d, some ds => some (d :: ds)
    | _, _ => none

/-- `ceil(n / d)` on naturals, `d > 0`. -/
def ceilDiv (n d : Nat) : Nat := (n + (d - 1)) / d

/-- Whether a count `n` is within a capacity: always, when it is unbounded (R4). -/
def admits (cap : Option Nat) (n : Nat) : Bool :=
  match cap with
  | none => true
  | some c => decide (n ≤ c)

/-- Whether index `i` of a buffer has storage behind it (R47). -/
def hasStorage (cap : Option Nat) (i : Nat) : Bool := admits cap (i + 1)

/-- Whether a length register of `LEN_W` bits can hold `n` (R4, R12). -/
def lengthFits (lenW : Option Nat) (n : Nat) : Bool :=
  match lenW with
  | none => true
  | some w => decide (n < 2 ^ w)

end Sys2Proof.Machine
end

