-- ==== Sys2Proof/Machine/State.lean ====
section
/-! DEFINITION. The state of one BASECODEC instance (R10), what a step can stop with, and the state after reset
(R36, R170). -/

namespace Sys2Proof.Machine

/-- The four error kinds (R150). Each is reported in `STATUS` as a next state, never as a stop. -/
inductive ErrorKind where
  | lengthError
  | invalidCharacterError
  | resourceExhaustedError
  | unsupportedFormatError
  deriving DecidableEq, Repr

/-- The result of an operation: `Ok(s)` or `Err(k)` (`00_scope.md`, Notation). -/
inductive Result where
  | ok (s : List Byte)
  | err (k : ErrorKind)
  deriving DecidableEq, Repr

/-- A buffer: (index, byte) pairs, indices strictly rising. An index that is not listed holds no specified value
(R15, R16, R36): a read of it draws a free byte, so no entry could equal "what an unlisted index reads as". -/
abbrev Memory := List Host.Cell

/-- What stops the machine with a fault. The block has no trap (R159, R161). -/
inductive Fault where
  /-- Raised by a host read or write of `IBUF` or `OBUF` at an index at or beyond the capacity: "no storage behind
  it" (R47, U4). No command raises it. Safe: nothing can be proved of what follows. Entry 7. -/
  | bufferIndexBeyondCapacity (index : Nat)
  deriving DecidableEq, Repr

/-- What has no meaning in the model. -/
inductive Refusal where
  /-- A command not modelled yet. No arm of `exec` answers it. Safe. -/
  | notModelled (mnemonic : String)
  /-- Raised by a host write of `ILEN` with a number that `LEN_W` bits cannot hold: the register has no such value
  (R4, R12). Safe. Entry 6. -/
  | lengthTooWide (n : Nat)
  /-- Raised by `MOVE` when `OLEN > IBUF_CAP`: "the host cannot perform it" (R68). Safe. Entry 8. -/
  | moveDoesNotFit (olen : Nat)
  /-- Raised by a bus access at an address where `REGMAP` puts nothing (R50). Safe. Entry 12. -/
  | unmappedBusAddress (addr : Nat)
  /-- Raised by a bus write to `CMD` or to a byte of `IBUF` of a number that 8 bits cannot hold: the place has no such
  value (R11, R40). Safe. Entry 12. -/
  | busValueTooWide (v : Nat)
  deriving DecidableEq, Repr

/-- The state: R10's registers, buffers and tables, then three fields of the model's own. -/
structure State where
  /-- The parameters and the table store (R4, R10, R21). No step changes it (R5, R172). -/
  cfg : Config
  /-- `CMD` (R11). -/
  cmd : CmdWord
  /-- `ILEN` (R12). -/
  ilen : Nat
  /-- `OLEN` (R13). -/
  olen : Nat
  /-- `STATUS` (R14). -/
  status : Byte
  /-- `IBUF` (R15). -/
  ibuf : Memory
  /-- `OBUF` (R16). -/
  obuf : Memory
  /-- MODEL: the host's moves still to come, oldest first (R52; entry 1). -/
  host : List HostMove
  /-- MODEL: what the host's latest read returned, none before the first (R17; entry 9). -/
  rdata : Option Nat
  /-- MODEL: how many free bytes have been drawn (R36, U3; entry 3). -/
  draws : Nat
  deriving DecidableEq, Repr

/-- The state after reset (R36, R170). The three model fields and the parameters are DESIGN CHOICES
(entries 1, 3, 4, 9, 12). -/
def State.reset : State where
  cfg := defaultConfig
  cmd := 0x00#8
  ilen := 0
  olen := 0
  status := 0x00#8
  ibuf := []
  obuf := []
  host := []
  rdata := none
  draws := 0

end Sys2Proof.Machine
end

