-- ==== Sys2Proof/Machine/Flags.lean ====
section
/-! DEFINITION. `STATUS`: the error codes and the field `ERR` (R14, R151). It is the only status a command leaves
beside `OLEN`; there are no condition codes (R20). -/

namespace Sys2Proof.Machine

/-- The code of each error kind in `STATUS.ERR` (R151); bits 7 to 3 are zero (R84). -/
def ErrorKind.code : ErrorKind → Byte
  | .lengthError => 0x01#8
  | .invalidCharacterError => 0x02#8
  | .resourceExhaustedError => 0x03#8
  | .unsupportedFormatError => 0x04#8

/-- `STATUS` after a success (R83). -/
def statusOk : Byte := 0x00#8

/-- `STATUS.ERR`, bits 2 to 0 (R14). -/
def errField (status : Byte) : BitVec 3 := status.extractLsb' 0 3

end Sys2Proof.Machine
end

