-- ==== Sys2Proof/Machine/Ops.lean ====
section
/-! DEFINITION. The named operations over buffers and registers, and reporting an error, which is what this hardware
has in place of taking an exception (R159). There is no return beside it: nothing is saved (R160). -/

namespace Sys2Proof.Machine

/-- The canonical form of a buffer: indices strictly rising. -/
abbrev Memory.wf (m : Memory) : Prop := m.Pairwise (fun c d => c.1 < d.1)

/-- The byte at an index, `none` when it has no specified value. -/
def Memory.read : Memory → Nat → Option Byte
  | [], _ => none
  | c :: m, a => if c.1 = a then some c.2 else Memory.read m a

/-- Stores a byte at an index, keeping the indices rising. -/
def Memory.write : Memory → Nat → Byte → Memory
  | [], a, v => [(a, v)]
  | c :: m, a, v =>
    if a < c.1 then (a, v) :: c :: m
    else if a = c.1 then (a, v) :: m
    else c :: Memory.write m a v

/-- A buffer that holds a byte sequence from index `base` on and no other specified byte. -/
def Memory.fromIndex (base : Nat) : List Byte → Memory
  | [] => []
  | v :: vs => (base, v) :: Memory.fromIndex (base + 1) vs

/-- The buffer `[s[0], …, s[|s|-1]]`, every further byte unspecified (R83). -/
def Memory.ofBytes (s : List Byte) : Memory := Memory.fromIndex 0 s

/-- Every listed index has storage behind it (R47). -/
abbrev Memory.within (cap : Option Nat) (m : Memory) : Prop := ∀ c ∈ m, hasStorage cap c.1 = true

/-- The byte a read of an index returns when `n` free bytes have been drawn before: the specified byte, else a free
one (R36, U3). -/
def Memory.readOrFree (m : Memory) (n a : Nat) : Byte := (m.read a).getD (Config.freeByte n)

/-- Success (R83): `OBUF[j] <- s[j]` and the bytes above unspecified, `OLEN <- |s|`, `STATUS <- 0x00`. -/
def State.succeed (s : State) (out : List Byte) : State :=
  { s with status := statusOk, olen := out.length, obuf := Memory.ofBytes out }

/-- Failure (R84, R159), the one way an error is taken: `STATUS <- code(k)`, `OLEN <- 0`, every byte of `OBUF`
unspecified. Nothing is saved and nothing else changes. -/
def State.fail (s : State) (k : ErrorKind) : State :=
  { s with status := k.code, olen := 0, obuf := [] }

/-- Write-back of a result (R80, last lines). -/
def State.writeBack (s : State) : Result → State
  | .ok out => s.succeed out
  | .err k => s.fail k

/-- Counts `n` more free bytes as drawn (entry 3). -/
def State.drew (s : State) (n : Nat) : State := { s with draws := s.draws + n }

/-- `CMD <- w` (R80). -/
def State.setCmd (s : State) (w : CmdWord) : State := { s with cmd := w }

/-- `ILEN <- n` (R12). -/
def State.setIlen (s : State) (n : Nat) : State := { s with ilen := n }

/-- `IBUF[i] <- v` (R15). -/
def State.setIbuf (s : State) (i : Nat) (v : Byte) : State := { s with ibuf := s.ibuf.write i v }

/-- The host's read returned `n` (R17). -/
def State.setRdata (s : State) (n : Nat) : State := { s with rdata := some n }

/-- The moves still to come (R52). -/
def State.setHost (s : State) (moves : List HostMove) : State := { s with host := moves }

/-- Reset applied to a running instance (R170): the registers and buffers as after power-on, the parameters and
tables kept (R172), and the model's own fields kept (entry 15). -/
def State.applyReset (s : State) : State :=
  { s with
    cmd := State.reset.cmd, ilen := State.reset.ilen, olen := State.reset.olen, status := State.reset.status,
    ibuf := State.reset.ibuf, obuf := State.reset.obuf }

end Sys2Proof.Machine
end

