-- ==== Sys2Proof/Machine/Operands.lean ====
section
/-! DEFINITION. The one operand form: the implicit source `In = IBUF[0..ILEN)` (R65, R80, R88). -/

namespace Sys2Proof.Machine

/-- `In = IBUF[0..ILEN)` (R80): `ILEN` bytes, `In[i] = IBUF[i]`. A byte that has no specified value is a free one
(R174, U3), drawn once for the whole command, since `In` is one sequence (entry 3). -/
def State.input (s : State) : List Byte :=
  (List.range s.ilen).map fun i => s.ibuf.readOrFree (s.draws + i) i

/-- The state after the source operand is read: a read changes nothing (R48) but the model's count of draws. -/
def State.tookInput (s : State) : State := s.drew s.ilen

end Sys2Proof.Machine
end

