-- ==== Sys2Proof/Machine/Command.lean ====
section
/-! DEFINITION. The part of the command step that the twelve commands share, from the input length check on (R80). -/

namespace Sys2Proof.Machine

/-- The result of R80 once the tag is legal and the input is in the buffer: the function's own error, else the
accumulator test (R86), else the output capacity test (R85), else success. `need` is `acc_need`. -/
def resultWithin (cfg : Config) (result : Result) (need : Nat) : Result :=
  match result with
  | .err k => .err k
  | .ok out =>
    if admits cfg.accCap need = false then .err .resourceExhaustedError
    else if admits cfg.obufCap out.length = false then .err .resourceExhaustedError
    else .ok out

/-- R80 for a legal tag: `ILEN > IBUF_CAP` fails with no byte read (R82); otherwise the function `f` is applied to
`In`, the capacities are tested, and the result is written back (R83, R84). -/
def runCommand (f : List Byte → Result) (need : List Byte → Nat) (s : State) : Host.Outcome State Fault Refusal :=
  if admits s.cfg.ibufCap s.ilen = false then .next (s.fail .resourceExhaustedError)
  else .next (s.tookInput.writeBack (resultWithin s.cfg (f s.input) (need s.input)))

/-- `acc_need` of the eight commands that have no accumulator (R86). -/
def noAccumulator (_ : List Byte) : Nat := 0

end Sys2Proof.Machine
end

