-- ==== Sys2Proof/Machine/BigInt.lean ====
section
/-! DEFINITION. The Big-Integer Codec: Base58, Base62 (`42_bigint.md`). -/

namespace Sys2Proof.Machine

/-- `num_R(D)` of R121: the digits most significant first, each times its power of the radix. -/
def num (R : Nat) : List Nat → Nat
  | [] => 0
  | d :: ds => d * R ^ ds.length + num R ds

/-- The digits of a number, least significant first: "repeated divide the whole number by radix, record remainder",
at most `fuel` of them. -/
def lowDigits (R : Nat) : Nat → Nat → List Nat
  | 0, _ => []
  | fuel + 1, N => if N = 0 then [] else N % R :: lowDigits R fuel (N / R)

/-- `digits_R(N)` of R121: most significant first, no leading zero digit, none at all for 0. A number has no more
digits in a radix of 2 or more than it has bits. -/
def digits (R N : Nat) : List Nat := (lowDigits R (N.log2 + 1) N).reverse

/-- `lz(B)` of R122: the least index that does not hold 0, the length when there is none. -/
def leadingZeros (B : List Nat) : Nat := B.findIdx (· != 0)

/-- The bytes of a payload as numbers. -/
def toNats (P : List Byte) : List Nat := P.map BitVec.toNat

/-- The bytes with the given values. -/
def ofNats (D : List Nat) : List Byte := D.map (BitVec.ofNat 8)

/-- The digits of a number given by its digits in another radix. -/
def convert (fromRadix toRadix : Nat) (D : List Nat) : List Nat := digits toRadix (num fromRadix D)

/-- The digits `digits_58(N)` of `ENC58` after the prefix (R124). -/
def enc58Digits (P : List Byte) : List Nat := convert 256 58 ((toNats P).drop (leadingZeros (toNats P)))

/-- `enc_58` (R124). -/
def enc58 (a : Alphabets) (P : List Byte) : Result :=
  .ok (List.replicate (leadingZeros (toNats P)) (symbol a.alpha58 0) ++ symbols a.alpha58 (enc58Digits P))

/-- `acc_need` of `ENC58` (R86): the result symbols less the prefix. -/
def enc58Need (P : List Byte) : Nat := (enc58Digits P).length

/-- The digits `digits_256(N)` of `DEC58` after the prefix (R125), `D` the digits of the text. -/
def dec58Digits (D : List Nat) : List Nat := convert 58 256 (D.drop (leadingZeros D))

/-- `dec_58` (R125): the validity test (R123), then the conversion. -/
def dec58 (a : Alphabets) (T : List Byte) : Result :=
  match lookupAll a.alpha58 T with
  | some D => .ok (List.replicate (leadingZeros D) 0x00#8 ++ ofNats (dec58Digits D))
  | none => .err .invalidCharacterError

/-- `acc_need` of `DEC58` (R86): the result bytes less the prefix. It is asked for valid texts only. -/
def dec58Need (a : Alphabets) (T : List Byte) : Nat :=
  match lookupAll a.alpha58 T with
  | some D => (dec58Digits D).length
  | none => 0

/-- `enc_62` (R126): no prefix, so leading zero bytes leave no trace (R134). -/
def enc62 (a : Alphabets) (P : List Byte) : Result := .ok (symbols a.alpha62 (convert 256 62 (toNats P)))

/-- `acc_need` of `ENC62` (R86): the length of the result. -/
def enc62Need (P : List Byte) : Nat := (convert 256 62 (toNats P)).length

/-- `dec_62` (R127). -/
def dec62 (a : Alphabets) (T : List Byte) : Result :=
  match lookupAll a.alpha62 T with
  | some D => .ok (ofNats (convert 62 256 D))
  | none => .err .invalidCharacterError

/-- `acc_need` of `DEC62` (R86): the length of the result. It is asked for valid texts only. -/
def dec62Need (a : Alphabets) (T : List Byte) : Nat :=
  match lookupAll a.alpha62 T with
  | some D => (convert 62 256 D).length
  | none => 0

/-- `ENC58` (R124). -/
def execEnc58 (s : State) : Host.Outcome State Fault Refusal :=
  runCommand (enc58 s.cfg.alphabets) enc58Need s

/-- `DEC58` (R125). -/
def execDec58 (s : State) : Host.Outcome State Fault Refusal :=
  runCommand (dec58 s.cfg.alphabets) (dec58Need s.cfg.alphabets) s

/-- `ENC62` (R126). -/
def execEnc62 (s : State) : Host.Outcome State Fault Refusal :=
  runCommand (enc62 s.cfg.alphabets) enc62Need s

/-- `DEC62` (R127). -/
def execDec62 (s : State) : Host.Outcome State Fault Refusal :=
  runCommand (dec62 s.cfg.alphabets) (dec62Need s.cfg.alphabets) s

end Sys2Proof.Machine
end

