-- ==== Sys2Proof/Machine/Block85.lean ====
section
/-! DEFINITION. The Block-Radix-85 Codec: Base85 (`43_block85.md`). -/

namespace Sys2Proof.Machine

/-- A block of four bytes as a 32-bit number, big-endian (R44, R141). -/
def blockValue (b0 b1 b2 b3 : Byte) : Nat :=
  b0.toNat * 2 ^ 24 + b1.toNat * 2 ^ 16 + b2.toNat * 2 ^ 8 + b3.toNat

/-- The five digits of a block value, most significant first, by repeated remainder and division (R141). -/
def blockDigits (v : Nat) : List Nat :=
  let v1 := v / 85
  let v2 := v1 / 85
  let v3 := v2 / 85
  let v4 := v3 / 85
  [v4 % 85, v3 % 85, v2 % 85, v1 % 85, v % 85]

/-- The blocks of a payload whose length is a multiple of 4, five digits each (R141). -/
def payloadDigits : List Byte → List Nat
  | b0 :: b1 :: b2 :: b3 :: rest => blockDigits (blockValue b0 b1 b2 b3) ++ payloadDigits rest
  | _ => []

/-- `P'` of R141: zero bytes on the right to a multiple of 4. -/
def zeroFilled (P : List Byte) : List Byte :=
  P ++ List.replicate (4 * ceilDiv P.length 4 - P.length) 0x00#8

/-- `enc_85` (R141). -/
def enc85 (a : Alphabets) (P : List Byte) : Result := .ok (symbols a.alpha85 (payloadDigits (zeroFilled P)))

/-- `trunc_32(v * 85 + d)` (R142, R145). -/
def accumulate85 (v d : Nat) : Nat := (v * 85 + d) % 2 ^ 32

/-- A 32-bit value as four bytes, big-endian (R44, R142). -/
def valueBytes (v : Nat) : List Byte :=
  [BitVec.ofNat 8 (v >>> 24), BitVec.ofNat 8 (v >>> 16), BitVec.ofNat 8 (v >>> 8), BitVec.ofNat 8 v]

/-- The groups of a digit sequence whose length is a multiple of 5, four bytes each (R142). -/
def textBytes : List Nat → List Byte
  | d0 :: d1 :: d2 :: d3 :: d4 :: rest =>
    valueBytes ([d0, d1, d2, d3, d4].foldl accumulate85 0) ++ textBytes rest
  | _ => []

/-- `C` of R142: the text without its whitespace (R146). -/
def cleaned (T : List Byte) : List Byte := T.filter fun c => !WS85.contains c

/-- `dec_85` (R142): whitespace out, then the length test, then the lookups. -/
def dec85 (a : Alphabets) (T : List Byte) : Result :=
  if (cleaned T).length % 5 ≠ 0 then .err .lengthError
  else
    match lookupAll a.alpha85 (cleaned T) with
    | some D => .ok (textBytes D)
    | none => .err .invalidCharacterError

/-- `ENC85` (R141). -/
def execEnc85 (s : State) : Host.Outcome State Fault Refusal :=
  runCommand (enc85 s.cfg.alphabets) noAccumulator s

/-- `DEC85` (R142). -/
def execDec85 (s : State) : Host.Outcome State Fault Refusal :=
  runCommand (dec85 s.cfg.alphabets) noAccumulator s

end Sys2Proof.Machine
end

