-- ==== Sys2Proof/Machine/FixedGroup.lean ====
section
/-! DEFINITION. The Fixed-Group Codec: Base16, Base32, Base64 (`41_fixed_group.md`). -/

namespace Sys2Proof.Machine

/-- `bit(p)` of R91: stream position `p` of a payload is bit `7 - (p mod 8)` of byte `p div 8` (R43); a position at
or past the end holds 0. -/
def payloadBit (P : List Byte) (p : Nat) : Nat :=
  if p < 8 * P.length then ((P.getD (p / 8) 0#8).toNat >>> (7 - p % 8)) &&& 1 else 0

/-- `digit(k)` of R91. -/
def digitAt (b : Nat) (P : List Byte) (k : Nat) : Nat :=
  ((List.range b).map fun t => payloadBit P (k * b + t) * 2 ^ (b - 1 - t)).sum

/-- `digits_b(P)` of R91: `ceil(8n / b)` digits. -/
def groupDigits (b : Nat) (P : List Byte) : List Nat :=
  (List.range (ceilDiv (8 * P.length) b)).map (digitAt b P)

/-- `padded_G(S)` of R92. -/
def padded (G : Nat) (S : List Byte) : List Byte :=
  S ++ List.replicate ((G - S.length % G) % G) PAD

/-- `k` of R93 (V2): the index of the first pad symbol, the length when there is none. It is also the number of data
symbols of a valid text. -/
def dataCount (T : List Byte) : Nat := T.findIdx (· == PAD)

/-- `L` of R93: the index at which the final group of the padded text starts. -/
def finalGroupStart (G : Nat) (T : List Byte) : Nat := G * ceilDiv T.length G - G

/-- The validity of a Base32 or Base64 text (R93). -/
def validText (G : Nat) (table T : List Byte) : Bool :=
  -- (V1)
  T.all (fun c => c == PAD || (inverse table c).isSome) &&
  -- (V2)
  (T.drop (dataCount T)).all (· == PAD) &&
  -- (V3)
  decide (dataCount T < T.length → finalGroupStart G T ≤ dataCount T)

/-- `sbit(p)` of R94. -/
def digitBit (b : Nat) (D : List Nat) (p : Nat) : Nat := (D.getD (p / b) 0 >>> (b - 1 - p % b)) &&& 1

/-- `byte(t)` of R94. -/
def byteAt (b : Nat) (D : List Nat) (t : Nat) : Byte :=
  BitVec.ofNat 8 (((List.range 8).map fun u => digitBit b D (8 * t + u) * 2 ^ (7 - u)).sum)

/-- `unpack_b(D)` of R94: `floor(k*b / 8)` bytes, the leftover positions dropped unchecked. -/
def unpack (b : Nat) (D : List Nat) : List Byte := (List.range (D.length * b / 8)).map (byteAt b D)

/-- `dec` of Base32 and Base64 (R98, R100). -/
def decGroup (b G : Nat) (table T : List Byte) : Result :=
  if validText G table T then
    match lookupAll table (T.take (dataCount T)) with
    | some D => .ok (unpack b D)
    | none => .err .invalidCharacterError
  else .err .invalidCharacterError

/-- `enc_16` (R95). -/
def enc16 (a : Alphabets) (P : List Byte) : Result :=
  .ok (P.flatMap fun v => [symbol a.alpha16 (v.toNat >>> 4), symbol a.alpha16 (v.toNat &&& 15)])

/-- A pair of digits makes one byte, `(high << 4) | low` (R96). -/
def joinPairs : List Nat → List Byte
  | h :: l :: rest => BitVec.ofNat 8 ((h <<< 4) ||| l) :: joinPairs rest
  | _ => []

/-- `dec_16` (R96): the length test first, on the length alone. -/
def dec16 (a : Alphabets) (T : List Byte) : Result :=
  if T.length % 2 = 1 then .err .lengthError
  else
    match lookupAll a.alpha16 T with
    | some D => .ok (joinPairs D)
    | none => .err .invalidCharacterError

/-- `enc_32` (R97). -/
def enc32 (a : Alphabets) (P : List Byte) : Result := .ok (padded 8 (symbols a.alpha32 (groupDigits 5 P)))

/-- `dec_32` (R98). -/
def dec32 (a : Alphabets) (T : List Byte) : Result := decGroup 5 8 a.alpha32 T

/-- `enc_64` (R99). -/
def enc64 (a : Alphabets) (P : List Byte) : Result := .ok (padded 4 (symbols a.alpha64 (groupDigits 6 P)))

/-- `dec_64` (R100). -/
def dec64 (a : Alphabets) (T : List Byte) : Result := decGroup 6 4 a.alpha64 T

/-- `ENC16` (R95). -/
def execEnc16 (s : State) : Host.Outcome State Fault Refusal :=
  runCommand (enc16 s.cfg.alphabets) noAccumulator s

/-- `DEC16` (R96). -/
def execDec16 (s : State) : Host.Outcome State Fault Refusal :=
  runCommand (dec16 s.cfg.alphabets) noAccumulator s

/-- `ENC32` (R97). -/
def execEnc32 (s : State) : Host.Outcome State Fault Refusal :=
  runCommand (enc32 s.cfg.alphabets) noAccumulator s

/-- `DEC32` (R98). -/
def execDec32 (s : State) : Host.Outcome State Fault Refusal :=
  runCommand (dec32 s.cfg.alphabets) noAccumulator s

/-- `ENC64` (R99). -/
def execEnc64 (s : State) : Host.Outcome State Fault Refusal :=
  runCommand (enc64 s.cfg.alphabets) noAccumulator s

/-- `DEC64` (R100). -/
def execDec64 (s : State) : Host.Outcome State Fault Refusal :=
  runCommand (dec64 s.cfg.alphabets) noAccumulator s

end Sys2Proof.Machine
end

