-- ==== Sys2Proof/Machine/Dispatch.lean ====
section
/-! DEFINITION. The dispatcher (R63, R80): one arm per command, each one call of its meaning. -/

namespace Sys2Proof.Machine

/-- The command's meaning, once its word is decoded (R80). -/
def exec (i : Instr) (s : State) : Host.Outcome State Fault Refusal :=
  match i with
  | .enc16 => Sys2Proof.Machine.execEnc16 s
  | .enc32 => Sys2Proof.Machine.execEnc32 s
  | .enc58 => Sys2Proof.Machine.execEnc58 s
  | .enc62 => Sys2Proof.Machine.execEnc62 s
  | .enc64 => Sys2Proof.Machine.execEnc64 s
  | .enc85 => Sys2Proof.Machine.execEnc85 s
  | .dec16 => Sys2Proof.Machine.execDec16 s
  | .dec32 => Sys2Proof.Machine.execDec32 s
  | .dec58 => Sys2Proof.Machine.execDec58 s
  | .dec62 => Sys2Proof.Machine.execDec62 s
  | .dec64 => Sys2Proof.Machine.execDec64 s
  | .dec85 => Sys2Proof.Machine.execDec85 s

end Sys2Proof.Machine
end

