-- ==== Sys2Proof/Machine/HostPort.lean ====
section
/-! DEFINITION. What each move of the host does (R17, R40, R50, R52, R68, R170), a `CMD` write among them (R80). -/

namespace Sys2Proof.Machine

/-- A write of `CMD` (R80): the word is stored, then decoded (R55, R62); a legal word runs its command, any other
fails with `UnsupportedFormatError` whatever `ILEN` and `IBUF` hold (R64, R81). -/
def writeCmd (w : CmdWord) (s : State) : Host.Outcome State Fault Refusal :=
  match decode w with
  | .ok i => exec i (s.setCmd w)
  | .error _ => .next ((s.setCmd w).fail .unsupportedFormatError)

/-- A write of `ILEN` (R12): any value the register can hold, whatever `IBUF_CAP` is. -/
def writeIlen (n : Nat) (s : State) : Host.Outcome State Fault Refusal :=
  if lengthFits s.cfg.lenW n then .next (s.setIlen n) else .refused (.lengthTooWide n)

/-- A write of one byte of `IBUF` (R15, R47). -/
def writeIbuf (i : Nat) (v : Byte) (s : State) : Host.Outcome State Fault Refusal :=
  if hasStorage s.cfg.ibufCap i then .next (s.setIbuf i v) else .fault (.bufferIndexBeyondCapacity i)

/-- A write to one byte of `OBUF`, ignored (R16) where there is storage (R47). -/
def writeObuf (j : Nat) (s : State) : Host.Outcome State Fault Refusal :=
  if hasStorage s.cfg.obufCap j then .next s else .fault (.bufferIndexBeyondCapacity j)

/-- The value of a register (R11 to R14). -/
def State.regValue (s : State) : HostReg → Nat
  | .cmd => s.cmd.toNat
  | .ilen => s.ilen
  | .olen => s.olen
  | .status => s.status.toNat

/-- A read of a register: no effect on the block (R17). -/
def readReg (r : HostReg) (s : State) : Host.Outcome State Fault Refusal := .next (s.setRdata (s.regValue r))

/-- A read of one byte of `IBUF` (R17, R47): a byte with no specified value reads as a free one (R36). -/
def readIbuf (i : Nat) (s : State) : Host.Outcome State Fault Refusal :=
  if hasStorage s.cfg.ibufCap i then
    .next ((s.setRdata (s.ibuf.readOrFree s.draws i).toNat).drew 1)
  else .fault (.bufferIndexBeyondCapacity i)

/-- A read of one byte of `OBUF` (R17, R47): a byte with no specified value reads as a free one (R16, R36). -/
def readObuf (j : Nat) (s : State) : Host.Outcome State Fault Refusal :=
  if hasStorage s.cfg.obufCap j then
    .next ((s.setRdata (s.obuf.readOrFree s.draws j).toNat).drew 1)
  else .fault (.bufferIndexBeyondCapacity j)

/-- One read and one write of `MOVE` (R68): `IBUF[j] <- OBUF[j]`. -/
def copyByte (s : State) (j : Nat) : State :=
  let v := s.obuf.readOrFree s.draws j
  ((s.setRdata v.toNat).drew 1).setIbuf j v

/-- `MOVE` (R68): for each `j < OLEN`, `IBUF[j] <- OBUF[j]`, then `ILEN <- OLEN`; it needs `OLEN <= IBUF_CAP`. -/
def moveResult (s : State) : Host.Outcome State Fault Refusal :=
  if admits s.cfg.ibufCap s.olen then writeIlen s.olen ((List.range s.olen).foldl copyByte s)
  else .refused (.moveDoesNotFit s.olen)

/-- The place at a bus address in one window of `REGMAP` (R50). -/
def windowPlace (addr : Nat) : BusWindow → Option Place
  | .reg a r => if addr = a then some (.reg r) else none
  | .ibuf base first count =>
    if base ≤ addr ∧ hasStorage count (addr - base) = true then some (.ibuf (first + (addr - base))) else none
  | .obuf base first count =>
    if base ≤ addr ∧ hasStorage count (addr - base) = true then some (.obuf (first + (addr - base))) else none

/-- The place at a bus address (R50): what the first window that has the address puts there. -/
def busPlace (regmap : List BusWindow) (addr : Nat) : Option Place := regmap.findSome? (windowPlace addr)

/-- A read of a place, by what stands there (R17). -/
def readPlace (p : Place) (s : State) : Host.Outcome State Fault Refusal :=
  match p with
  | .reg r => readReg r s
  | .ibuf i => readIbuf i s
  | .obuf j => readObuf j s

/-- The byte a bus write stores, where the number is one (R40). -/
def asByte (v : Nat) (f : Byte → Host.Outcome State Fault Refusal) : Host.Outcome State Fault Refusal :=
  if v < 256 then f (BitVec.ofNat 8 v) else .refused (.busValueTooWide v)

/-- A write to a place, by what stands there (R17); a write to `OLEN`, `STATUS` or `OBUF` is ignored. -/
def writePlace (p : Place) (v : Nat) (s : State) : Host.Outcome State Fault Refusal :=
  match p with
  | .reg .cmd => asByte v fun w => writeCmd w s
  | .reg .ilen => writeIlen v s
  | .reg .olen => .next s
  | .reg .status => .next s
  | .ibuf i => asByte v fun b => writeIbuf i b s
  | .obuf j => writeObuf j s

/-- A bus read (R50): the read, by name and index, of the place at the address. -/
def busRead (addr : Nat) (s : State) : Host.Outcome State Fault Refusal :=
  match busPlace s.cfg.regmap addr with
  | some p => readPlace p s
  | none => .refused (.unmappedBusAddress addr)

/-- A bus write (R50): the write, by name and index, to the place at the address. -/
def busWrite (addr v : Nat) (s : State) : Host.Outcome State Fault Refusal :=
  match busPlace s.cfg.regmap addr with
  | some p => writePlace p v s
  | none => .refused (.unmappedBusAddress addr)

/-- What a move does. -/
def hostMove (a : HostMove) (s : State) : Host.Outcome State Fault Refusal :=
  match a with
  | .reset => .next s.applyReset
  | .writeCmd w => writeCmd w s
  | .writeIlen n => writeIlen n s
  | .writeIbuf i v => writeIbuf i v s
  | .writeOlen _ => .next s
  | .writeStatus _ => .next s
  | .writeObuf j _ => writeObuf j s
  | .readReg r => readReg r s
  | .readIbuf i => readIbuf i s
  | .readObuf j => readObuf j s
  | .busRead addr => busRead addr s
  | .busWrite addr v => busWrite addr v s
  | .move => moveResult s

/-- The host's next move, taken off the front of the moves to come; with none to come the block holds its state and
does nothing (R19, R164). -/
def hostStep (s : State) : Host.Outcome State Fault Refusal :=
  match s.host with
  | [] => .next s
  | a :: rest => hostMove a (s.setHost rest)

/-- Puts a command word in front of the host's moves: the next step writes it to `CMD`. -/
def State.pushWord (s : State) (nbits w : Nat) : State :=
  s.setHost (.writeCmd (BitVec.ofNat 8 (w % 2 ^ nbits)) :: s.host)

end Sys2Proof.Machine
end

