-- ==== Sys2Proof/Machine/Datapath.lean ====
section
/-! DEFINITION. The datapaths DOC0 describes, with the working registers of R32 to R34: R101, R102, R128, R129, R143,
R144. The registers live inside one command (R10), so they are records here and no part of `State`. Each datapath
computes the function of its family; that they do is stated as obligations. In every record `out` is `OBUF[0..j)`, and
the output index `j` is its length. -/

namespace Sys2Proof.Machine

/-- The Fixed-Group working registers (R32). -/
structure FixedRegs where
  bitbuf : Nat
  nbits : Nat
  seenpad : Bool
  out : List Byte
  deriving DecidableEq, Repr

/-- All set to 0 at the start of the command (R32). -/
def FixedRegs.start : FixedRegs := { bitbuf := 0, nbits := 0, seenpad := false, out := [] }

/-- `BITBUF <- (BITBUF << w) | v; NBITS <- NBITS + w` (R101, R102). -/
def FixedRegs.take (r : FixedRegs) (w v : Nat) : FixedRegs :=
  { r with bitbuf := (r.bitbuf <<< w) ||| v, nbits := r.nbits + w }

/-- `BITBUF <- BITBUF & (2^NBITS - 1)` (R101, R102). -/
def FixedRegs.keepValid (r : FixedRegs) : FixedRegs := { r with bitbuf := r.bitbuf &&& (2 ^ r.nbits - 1) }

/-- `while NBITS >= b` of R101. Each pass takes `b > 0` bits, so `fuel = NBITS` passes are enough. -/
def fixedDrain (b : Nat) (table : List Byte) : Nat → FixedRegs → FixedRegs
  | 0, r => r
  | fuel + 1, r =>
    if b ≤ r.nbits then
      fixedDrain b table fuel
        { r with
          nbits := r.nbits - b
          out := r.out ++ [symbol table ((r.bitbuf >>> (r.nbits - b)) &&& (2 ^ b - 1))] }
    else r

/-- The body of R101's `for`: one input byte. -/
def fixedEncByte (b : Nat) (table : List Byte) (r : FixedRegs) (v : Byte) : FixedRegs :=
  let r := r.take 8 v.toNat
  (fixedDrain b table r.nbits r).keepValid

/-- The registers of R101 after the input bytes. -/
def fixedEncLoop (b : Nat) (table P : List Byte) : FixedRegs := P.foldl (fixedEncByte b table) FixedRegs.start

/-- `if NBITS > 0` of R101: the short last digit, left-shifted and zero-filled. -/
def fixedEncTail (b : Nat) (table : List Byte) (r : FixedRegs) : List Byte :=
  if 0 < r.nbits then r.out ++ [symbol table ((r.bitbuf <<< (b - r.nbits)) &&& (2 ^ b - 1))] else r.out

/-- `while j mod G != 0: emit(PAD)` of R101; `fuel = G` passes are enough. -/
def padLoop (G : Nat) : Nat → List Byte → List Byte
  | 0, out => out
  | fuel + 1, out => if out.length % G ≠ 0 then padLoop G fuel (out ++ [PAD]) else out

/-- The encoder datapath (R101); `G = none` for the format with no pad symbol. -/
def fixedEncode (b : Nat) (G : Option Nat) (table P : List Byte) : List Byte :=
  let out := fixedEncTail b table (fixedEncLoop b table P)
  match G with
  | none => out
  | some g => padLoop g g out

/-- The body of R102's data branch, `v` the symbol's digit. -/
def fixedDecSymbol (b : Nat) (r : FixedRegs) (v : Nat) : FixedRegs :=
  let r := r.take b v
  if 8 ≤ r.nbits then
    FixedRegs.keepValid
      { r with nbits := r.nbits - 8, out := r.out ++ [BitVec.ofNat 8 ((r.bitbuf >>> (r.nbits - 8)) &&& 0xFF)] }
  else r

/-- The loop of R102 from input index `i` on. -/
def fixedDecLoop (b L : Nat) (table : List Byte) : Nat → FixedRegs → List Byte → Result
  | _, r, [] => .ok r.out
  | i, r, c :: cs =>
    if c = PAD then
      if i < L then .err .invalidCharacterError
      else fixedDecLoop b L table (i + 1) { r with seenpad := true } cs
    else
      match inverse table c with
      | none => .err .invalidCharacterError
      | some v =>
        if r.seenpad then .err .invalidCharacterError
        else fixedDecLoop b L table (i + 1) (fixedDecSymbol b r v) cs

/-- The decoder datapath of Base32 and Base64 (R102). -/
def fixedDecode (b G : Nat) (table T : List Byte) : Result :=
  fixedDecLoop b (G * (ceilDiv T.length G - 1)) table 0 FixedRegs.start T

/-- The Big-Integer working registers (R33). `ACC[0..ALEN)` is `acc`, least significant digit first, and `ALEN` its
length. -/
structure BigRegs where
  z : Nat
  acc : List Nat
  carry : Nat
  deriving DecidableEq, Repr

/-- The accumulator is empty, not a single zero digit (R33, R121). -/
def BigRegs.start (z : Nat) : BigRegs := { z := z, acc := [], carry := 0 }

/-- The inner `for` of R128 and R129: multiply the accumulator by `m` and add, digit by digit in radix `R`. The
result is the new digits and the carry left over. -/
def mulAdd (m R : Nat) : List Nat → Nat → List Nat × Nat
  | [], carry => ([], carry)
  | d :: acc, carry =>
    let t := d * m + carry
    let rest := mulAdd m R acc (t / R)
    (t % R :: rest.1, rest.2)

/-- `while CARRY > 0` of R128 and R129; a carry has no more digits than bits. -/
def flushCarry (R carry : Nat) : List Nat := lowDigits R (carry.log2 + 1) carry

/-- One input digit of R128 and R129: `CARRY <- d`, the inner loop, the flush. -/
def bigStep (m R : Nat) (r : BigRegs) (d : Nat) : BigRegs :=
  let p := mulAdd m R r.acc d
  { r with acc := p.1 ++ flushCarry R p.2, carry := 0 }

/-- `while Z < ILEN and … = 0: Z <- Z + 1` of R128 and R129, from `Z = z` on. -/
def countZeros : Nat → List Nat → Nat
  | z, [] => z
  | z, d :: ds => if d = 0 then countZeros (z + 1) ds else z

/-- The registers of R128 or R129 at the end of the main loop, `D` the input digits and `keepZeros` true for Base58
only. -/
def bigLoop (m R : Nat) (keepZeros : Bool) (D : List Nat) : BigRegs :=
  let z := if keepZeros then countZeros 0 D else 0
  (D.drop z).foldl (bigStep m R) (BigRegs.start z)

/-- The encoder datapath (R128). -/
def bigEncode (R : Nat) (keepZeros : Bool) (table P : List Byte) : List Byte :=
  let r := bigLoop 256 R keepZeros (toNats P)
  List.replicate r.z (symbol table 0) ++ symbols table r.acc.reverse

/-- The decoder datapath (R129). -/
def bigDecode (R : Nat) (keepZeros : Bool) (table T : List Byte) : Result :=
  match lookupAll table T with
  | none => .err .invalidCharacterError
  | some D =>
    let r := bigLoop R 256 keepZeros D
    .ok (List.replicate r.z 0x00#8 ++ ofNats r.acc.reverse)

/-- The Block-Radix-85 working registers (R34). -/
structure BlockRegs where
  val : Nat
  cnt : Nat
  nclean : Nat
  out : List Byte
  deriving DecidableEq, Repr

/-- All set to 0 at the start of the command (R34). -/
def BlockRegs.start : BlockRegs := { val := 0, cnt := 0, nclean := 0, out := [] }

/-- `for CNT = 0 .. 3` of R143: `VAL` of the block that starts at the head of the input, 0x00 past its end. -/
def gatherBlock : Nat → Nat → List Byte → Nat
  | 0, val, _ => val
  | n + 1, val, [] => gatherBlock n ((val <<< 8) ||| 0) []
  | n + 1, val, v :: rest => gatherBlock n ((val <<< 8) ||| v.toNat) rest

/-- `for t = 4 down to 0` of R143: the remainders, written from the block's last position to its first. -/
def blockSymbols (table : List Byte) : Nat → Nat → List Byte → List Byte
  | 0, _, written => written
  | n + 1, val, written => blockSymbols table n (val / 85) (symbol table (val % 85) :: written)

/-- The encoder datapath (R143): `while i < ILEN`, four bytes a pass; `fuel = ILEN` passes are enough. -/
def block85Encode (table : List Byte) : Nat → List Byte → List Byte
  | 0, _ => []
  | fuel + 1, P =>
    if P.length = 0 then []
    else blockSymbols table 5 (gatherBlock 4 0 P) [] ++ block85Encode table fuel (P.drop 4)

/-- The first pass of R144: `NCLEAN`. -/
def countClean : Nat → List Byte → Nat
  | n, [] => n
  | n, c :: cs => countClean (if WS85.contains c then n else n + 1) cs

/-- The second pass of R144. -/
def block85DecLoop (table : List Byte) : BlockRegs → List Byte → Result
  | r, [] => .ok r.out
  | r, c :: cs =>
    if WS85.contains c then block85DecLoop table r cs
    else
      match inverse table c with
      | none => .err .invalidCharacterError
      | some d =>
        let r := { r with val := accumulate85 r.val d, cnt := r.cnt + 1 }
        if r.cnt = 5 then block85DecLoop table { r with val := 0, cnt := 0, out := r.out ++ valueBytes r.val } cs
        else block85DecLoop table r cs

/-- The decoder datapath (R144). -/
def block85Decode (table T : List Byte) : Result :=
  let nclean := countClean 0 T
  if nclean % 5 ≠ 0 then .err .lengthError
  else block85DecLoop table { BlockRegs.start with nclean := nclean } T

end Sys2Proof.Machine
end

