-- ==== Sys2Proof/WellFormed.lean ====
section
/-! DEFINITION. The checks: a legal format tag (R62, R64), a legal command, and the constraints on the parameters
(R4, R30). -/

namespace Sys2Proof

/-- `RADIXES` (R4): the six radices, which are the six legal tags (R62). -/
def RADIXES : List Nat := [16, 32, 58, 62, 64, 85]

/-- Whether a tag is legal (R64). -/
def legalTag (tag : Nat) : Bool := RADIXES.contains tag

/-- A command is well-formed when its tag is one of the six. Every constructor is: the type leaves no room for
another (R63). -/
def Instr.wellFormed (i : Instr) : Bool := legalTag i.radix

/-- R30 (a), (b): exactly `r` entries, pairwise distinct, each a byte from 0x21 to 0x7E. -/
def alphabetOk (r : Nat) (table : List Byte) : Bool :=
  decide (table.length = r) && decide table.Nodup && table.all fun c => decide (0x21 ≤ c.toNat) && decide (c.toNat ≤ 0x7E)

/-- R30 (e): the table holds the given bytes at the given indices. -/
def pinned (table : List Byte) (pins : List (Nat × Byte)) : Bool := pins.all fun p => table[p.1]? == some p.2

/-- The entries DOC0 pins in `ALPHA16` (R24): `A B C D` at 10 to 13. -/
def pins16 : List (Nat × Byte) := [(10, 0x41#8), (11, 0x42#8), (12, 0x43#8), (13, 0x44#8)]

/-- The entries DOC0 pins in `ALPHA32` (R25): `J B S W Y 3 D P` at 9, 1, 18, 22, 24, 27, 3, 15. -/
def pins32 : List (Nat × Byte) :=
  [(9, 0x4A#8), (1, 0x42#8), (18, 0x53#8), (22, 0x57#8), (24, 0x59#8), (27, 0x33#8), (3, 0x44#8), (15, 0x50#8)]

/-- The entries DOC0 pins in `ALPHA64` (R26): `T W F u` at 19, 22, 5, 46. -/
def pins64 : List (Nat × Byte) := [(19, 0x54#8), (22, 0x57#8), (5, 0x46#8), (46, 0x75#8)]

/-- The entry DOC0 pins in `ALPHA58` (R27): `1` at 0, which is `ZERO58` (R4). -/
def pins58 : List (Nat × Byte) := [(0, 0x31#8)]

/-- The entry DOC0 pins in `ALPHA85` (R29): `!` at 0. -/
def pins85 : List (Nat × Byte) := [(0, 0x21#8)]

/-- R30 (c): the pad symbol is no entry of `ALPHA32` or `ALPHA64` (R23). -/
def padApart (a : Alphabets) : Bool := !a.alpha32.contains Machine.PAD && !a.alpha64.contains Machine.PAD

/-- R30 for the six alphabets: (a), (b), (c), (e). Clause (d) follows from (b). -/
def alphabetsOk (a : Alphabets) : Bool :=
  (alphabetOk 16 a.alpha16 && alphabetOk 32 a.alpha32 && alphabetOk 58 a.alpha58 &&
    alphabetOk 62 a.alpha62 && alphabetOk 64 a.alpha64 && alphabetOk 85 a.alpha85) &&
  padApart a &&
  (pinned a.alpha16 pins16 && pinned a.alpha32 pins32 && pinned a.alpha64 pins64 &&
    pinned a.alpha58 pins58 && pinned a.alpha85 pins85)

/-- R4's constraint on `LEN_W`: `2^LEN_W > max(IBUF_CAP, OBUF_CAP)`; with a bounded width both capacities are
bounded. -/
def lenWOk (c : Config) : Bool :=
  match c.lenW, c.ibufCap, c.obufCap with
  | none, _, _ => true
  | some w, some i, some o => decide (i < 2 ^ w) && decide (o < 2 ^ w)
  | some _, _, _ => false

/-- The parameters are those of an instance the spec describes (R4, R30). -/
abbrev Config.Wf (c : Config) : Prop := alphabetsOk c.alphabets = true ∧ lenWOk c = true

end Sys2Proof
end

