-- ==== Sys2Proof/Safety.lean ====
section
/-! DEFINITION. What claims are made in: the `EXPECT` lines of a host script (R68), a state a run can be in, and the
functions of the twelve commands by name. -/

namespace Sys2Proof.Machine

/-- `EXPECT OK <bytes>` (R68, R83): `STATUS` is 0x00, `OLEN` the number of bytes, `OBUF[0..OLEN)` the bytes. -/
abbrev State.ExpectOk (t : State) (out : List Byte) : Prop :=
  t.status = 0x00#8 ∧ t.olen = out.length ∧ ∀ j, ∀ h : j < out.length, t.obuf.read j = some out[j]

/-- `EXPECT ERR <kind>` (R68, R84): `STATUS` is the code of the kind, `OLEN` is 0. -/
abbrev State.ExpectErr (t : State) (k : ErrorKind) : Prop := t.status = k.code ∧ t.olen = 0

/-- Every byte of `OBUF` at or above an index has no specified value (R16). -/
def State.ObufUnspecifiedFrom (t : State) (n : Nat) : Prop := ∀ j, n ≤ j → t.obuf.read j = none

/-- The function of a command (R95 to R100, R124 to R127, R141, R142). -/
def functionOf (i : Instr) (a : Alphabets) (In : List Byte) : Result :=
  match i with
  | .enc16 => enc16 a In
  | .enc32 => enc32 a In
  | .enc58 => enc58 a In
  | .enc62 => enc62 a In
  | .enc64 => enc64 a In
  | .enc85 => enc85 a In
  | .dec16 => dec16 a In
  | .dec32 => dec32 a In
  | .dec58 => dec58 a In
  | .dec62 => dec62 a In
  | .dec64 => dec64 a In
  | .dec85 => dec85 a In

/-- `acc_need` of a command (R86). -/
def accNeedOf (i : Instr) (a : Alphabets) (In : List Byte) : Nat :=
  match i with
  | .enc16 => 0
  | .enc32 => 0
  | .enc58 => enc58Need In
  | .enc62 => enc62Need In
  | .enc64 => 0
  | .enc85 => 0
  | .dec16 => 0
  | .dec32 => 0
  | .dec58 => dec58Need a In
  | .dec62 => dec62Need a In
  | .dec64 => 0
  | .dec85 => 0

/-- The input and the results of a command fit the instance: `ILEN <= IBUF_CAP`, the accumulator digits `need` and
the result length `len` within their capacities (R82, R85, R86). -/
abbrev State.Fits (s : State) (need len : Nat) : Prop :=
  admits s.cfg.ibufCap s.ilen = true ∧ admits s.cfg.accCap need = true ∧ admits s.cfg.obufCap len = true

/-- The four whitespace characters by their codes (R146). -/
def isWhitespace (c : Byte) : Bool := c == 0x20#8 || c == 0x09#8 || c == 0x0D#8 || c == 0x0A#8

/-- The bytes of a text that are not whitespace (R142, R152 (b)). -/
def nonWhitespace (T : List Byte) : List Byte := T.filter fun c => !isWhitespace c

/-- R152: what makes a command fail with `LengthError`, the input being `T`. -/
def LengthCause (i : Instr) (T : List Byte) : Prop :=
  match i with
  | .dec16 => T.length % 2 = 1
  | .dec85 => (nonWhitespace T).length % 5 ≠ 0
  | .enc16 => False
  | .enc32 => False
  | .enc58 => False
  | .enc62 => False
  | .enc64 => False
  | .enc85 => False
  | .dec32 => False
  | .dec58 => False
  | .dec62 => False
  | .dec64 => False

/-- R153 (c): a pad symbol in a group of `G` that is not the final one, or a data symbol after a pad symbol. -/
def MisplacedPad (G : Nat) (T : List Byte) : Prop :=
  (∃ i : Nat, T[i]? = some PAD ∧ i / G < (T.length - 1) / G) ∨
  (∃ (i j : Nat) (c : Byte), i < j ∧ T[i]? = some PAD ∧ T[j]? = some c ∧ c ≠ PAD)

/-- R153: what makes a command fail with `InvalidCharacterError`, the input being `T`. -/
def CharCause (i : Instr) (a : Alphabets) (T : List Byte) : Prop :=
  match i with
  | .dec16 => T.length % 2 = 0 ∧ ∃ c ∈ T, c ∉ a.alpha16
  | .dec32 => (∃ c ∈ T, c ∉ a.alpha32 ∧ c ≠ PAD) ∨ MisplacedPad 8 T
  | .dec64 => (∃ c ∈ T, c ∉ a.alpha64 ∧ c ≠ PAD) ∨ MisplacedPad 4 T
  | .dec58 => ∃ c ∈ T, c ∉ a.alpha58
  | .dec62 => ∃ c ∈ T, c ∉ a.alpha62
  | .dec85 => (nonWhitespace T).length % 5 = 0 ∧ ∃ c ∈ nonWhitespace T, c ∉ a.alpha85
  | .enc16 => False
  | .enc32 => False
  | .enc58 => False
  | .enc62 => False
  | .enc64 => False
  | .enc85 => False

/-- R154 (b), (c): the function of a command succeeds, and its result or its accumulator does not fit. -/
def CapacityCause (i : Instr) (cfg : Config) (In : List Byte) : Prop :=
  ∃ out, functionOf i cfg.alphabets In = .ok out ∧
    (admits cfg.obufCap out.length = false ∨
      (i ∈ [Instr.enc58, .enc62, .dec58, .dec62] ∧ admits cfg.accCap (accNeedOf i cfg.alphabets In) = false))

/-- Stream position `p` of a byte sequence (R43): bit `7 - (p mod 8)` of byte `p div 8`, 0 past the end. -/
def streamBit (P : List Byte) (p : Nat) : Bool :=
  match P[p / 8]? with
  | some v => v.getLsbD (7 - p % 8)
  | none => false

/-- Stream position `p` of a sequence of `b`-bit digits (R94), 0 past the end. -/
def digitStreamBit (b : Nat) (D : List Nat) (p : Nat) : Bool :=
  match D[p / b]? with
  | some d => d.testBit (b - 1 - p % b)
  | none => false

/-- R91, R92 bit by bit: `out` has a symbol for each group of `b` stream positions that starts inside the payload, the
digit's bits being those positions, and the pad symbol at every index after. -/
def IsGroupText (b : Nat) (table P out : List Byte) : Prop :=
  (∀ k, k * b < 8 * P.length →
    ∃ d c, d < 2 ^ b ∧ table[d]? = some c ∧ out[k]? = some c ∧
      ∀ u, u < b → d.testBit (b - 1 - u) = streamBit P (k * b + u)) ∧
  (∀ k, 8 * P.length ≤ k * b → k < out.length → out[k]? = some PAD)

/-- R93: `T` is the symbols of `D` and then pad symbols, none of them before the final group of `G`. -/
def PaddedText (G : Nat) (table T : List Byte) (D : List Nat) : Prop :=
  (∀ d ∈ D, d < table.length) ∧
  ∃ p, T = D.map (symbol table) ++ List.replicate p PAD ∧ (0 < p → G * ((T.length - 1) / G) ≤ D.length)

/-- Digits of radix `R` with no leading zero digit (R121). -/
def ProperDigits (R : Nat) (D : List Nat) : Prop := (∀ d ∈ D, d < R) ∧ D.head? ≠ some 0

/-- The read by name and index of a place (R17). -/
def readMove : Place → HostMove
  | .reg r => .readReg r
  | .ibuf i => .readIbuf i
  | .obuf j => .readObuf j

/-- The write by name and index of a place (R17). -/
def writeMove (v : Nat) : Place → HostMove
  | .reg .cmd => .writeCmd (BitVec.ofNat 8 v)
  | .reg .ilen => .writeIlen v
  | .reg .olen => .writeOlen v
  | .reg .status => .writeStatus (BitVec.ofNat 8 v)
  | .ibuf i => .writeIbuf i (BitVec.ofNat 8 v)
  | .obuf j => .writeObuf j (BitVec.ofNat 8 v)

/-- Whether a number is a value of a place: eight bits where the host writes a byte (R11, R40). -/
def placeTakes (v : Nat) : Place → Prop
  | .reg .cmd => v < 256
  | .ibuf _ => v < 256
  | .reg .ilen => True
  | .reg .olen => True
  | .reg .status => True
  | .obuf _ => True

/-- The block's state is the same (R10): the model's own fields may differ. -/
def SameBlock (s t : State) : Prop :=
  t.cfg = s.cfg ∧ t.cmd = s.cmd ∧ t.ilen = s.ilen ∧ t.olen = s.olen ∧ t.status = s.status ∧ t.ibuf = s.ibuf ∧
    t.obuf = s.obuf

/-- What holds at reset and after every step. The parameters are an instance's (R4, R30); the lengths fit their
registers (R12, R13); both buffers are in canonical form with storage behind every byte (R47); `STATUS` is one of the
five codes (R14); the bytes of `OBUF` with a specified value are exactly `OBUF[0..OLEN)` (R16); after a failure `OLEN`
is 0 (R13). -/
abbrev State.Inv (s : State) : Prop :=
  s.cfg.Wf ∧
  (lengthFits s.cfg.lenW s.ilen = true ∧ lengthFits s.cfg.lenW s.olen = true) ∧
  (s.ibuf.wf ∧ s.ibuf.within s.cfg.ibufCap) ∧
  (s.obuf.wf ∧ s.obuf.within s.cfg.obufCap) ∧
  s.obuf.map (·.1) = List.range s.olen ∧
  s.status.toNat ≤ 4 ∧
  (s.status ≠ 0x00#8 → s.olen = 0)

end Sys2Proof.Machine
end

