-- ==== Sys2Proof/Certificates/Slice0/Obligations.lean ====
section
/-! DEFINITION. The statements for the provers, in the order of OBLIGATIONS.json. -/

open Sys2Proof Sys2Proof.Machine

/-! ## Encoding and the command step -/

/-- R63: the twelve words, every bit of which is decoded. Sanity. -/
def Obligations.TwelveWordsDecode : Prop :=
  decode 0b00010000#8 = .ok .enc16 ∧ decode 0b00100000#8 = .ok .enc32 ∧ decode 0b00111010#8 = .ok .enc58 ∧
  decode 0b00111110#8 = .ok .enc62 ∧ decode 0b01000000#8 = .ok .enc64 ∧ decode 0b01010101#8 = .ok .enc85 ∧
  decode 0b10010000#8 = .ok .dec16 ∧ decode 0b10100000#8 = .ok .dec32 ∧ decode 0b10111010#8 = .ok .dec58 ∧
  decode 0b10111110#8 = .ok .dec62 ∧ decode 0b11000000#8 = .ok .dec64 ∧ decode 0b11010101#8 = .ok .dec85

/-- R60, R62, R63: the decoder and the encoder agree in both directions, so each command has one word. -/
def Obligations.DecodeInvertsEncode : Prop := ∀ (w : CmdWord) (i : Instr), decode w = .ok i ↔ w = encode i

/-- R64, R81: the words whose tag is no radix are 244, and writing one fails with `UnsupportedFormatError` whatever
the direction, `ILEN` and `IBUF`; no byte is read. -/
def Obligations.IllegalWordFailsUnsupported : Prop :=
  ((List.range 256).filter fun n => !RADIXES.contains (fmtField (BitVec.ofNat 8 n)).toNat).length = 244 ∧
  ∀ (s : State) (w : CmdWord) (rest : List HostMove),
    s.host = .writeCmd w :: rest → (fmtField w).toNat ∉ RADIXES →
    ∃ t, step s = .next t ∧ t.ExpectErr .unsupportedFormatError ∧ t.ObufUnspecifiedFrom 0 ∧ t.cmd = w ∧
      t.ilen = s.ilen ∧ t.ibuf = s.ibuf ∧ t.cfg = s.cfg ∧ t.host = rest ∧ t.draws = s.draws

/-- R80, R55: a step at a `CMD` write stores the word and runs the command it decodes to at that moment; the moves to
come are the rest. -/
def Obligations.StepRunsDecodedCommand : Prop :=
  ∀ (s : State) (w : CmdWord) (rest : List HostMove) (i : Instr),
    s.host = .writeCmd w :: rest → decode w = .ok i → step s = exec i { s with host := rest, cmd := w }

/-- R89, R158: every command, in every state, ends in a next state: no command stops the machine. -/
def Obligations.EveryCommandTerminates : Prop := ∀ (i : Instr) (s : State), ∃ t, exec i s = .next t

/-- R82: `ILEN > IBUF_CAP` fails with `ResourceExhaustedError` and no byte of `IBUF` is read; with `IBUF_CAP`
unbounded this never happens: the kind is then reported for a result or an accumulator that does not fit only. -/
def Obligations.InputOverCapacityFails : Prop :=
  (∀ (i : Instr) (s : State) (c : Nat), s.cfg.ibufCap = some c → c < s.ilen →
    ∃ t, exec i s = .next t ∧ t.ExpectErr .resourceExhaustedError ∧ t.ObufUnspecifiedFrom 0 ∧ t.draws = s.draws) ∧
  (∀ (i : Instr) (s : State), s.cfg.ibufCap = none →
    ∃ t, exec i s = .next t ∧
      (t.status = ErrorKind.resourceExhaustedError.code → CapacityCause i s.cfg s.input))

/-- R83: a success writes the whole result, its length and `OK`; the bytes above become unspecified; the empty input
gives the empty result, for every command. -/
def Obligations.SuccessWritesResult : Prop :=
  (∀ (i : Instr) (a : Alphabets), functionOf i a [] = .ok []) ∧
  ∀ (i : Instr) (s : State) (out : List Byte),
    functionOf i s.cfg.alphabets s.input = .ok out →
    s.Fits (accNeedOf i s.cfg.alphabets s.input) out.length →
    ∃ t, exec i s = .next t ∧ t.ExpectOk out ∧ t.ObufUnspecifiedFrom out.length

/-- R84: a failure writes the code of its kind with bits 7 to 3 zero, `OLEN` 0, and leaves all of `OBUF` unspecified;
the next command runs normally. -/
def Obligations.FailureWritesError : Prop :=
  (∀ (i : Instr) (s : State) (k : ErrorKind), admits s.cfg.ibufCap s.ilen = true →
    functionOf i s.cfg.alphabets s.input = .err k →
    ∃ t, exec i s = .next t ∧ t.ExpectErr k ∧ t.ObufUnspecifiedFrom 0) ∧
  (∀ (i : Instr) (s t : State), exec i s = .next t → t.status ≠ 0x00#8 →
    t.olen = 0 ∧ t.ObufUnspecifiedFrom 0 ∧ t.status.extractLsb' 3 5 = 0#5 ∧ ∀ j, ∃ u, exec j t = .next u)

/-- R85, R86: a result longer than `OBUF_CAP`, or a Big-Integer accumulator of more than `ACC_CAP` digits, fails with
`ResourceExhaustedError` after the function's own checks. -/
def Obligations.CapacityExceededFails : Prop :=
  ∀ (i : Instr) (s : State), admits s.cfg.ibufCap s.ilen = true → CapacityCause i s.cfg s.input →
    ∃ t, exec i s = .next t ∧ t.ExpectErr .resourceExhaustedError ∧ t.ObufUnspecifiedFrom 0

/-! ## The causes of the error kinds and their order -/

/-- R152: `LengthError` is reported for exactly two causes. -/
def Obligations.LengthErrorCauses : Prop :=
  ∀ (i : Instr) (s : State), ∃ t, exec i s = .next t ∧
    (t.status = ErrorKind.lengthError.code ↔ admits s.cfg.ibufCap s.ilen = true ∧ LengthCause i s.input)

/-- R153: `InvalidCharacterError` is reported for exactly the listed causes. -/
def Obligations.InvalidCharacterCauses : Prop :=
  ∀ (i : Instr) (s : State), ∃ t, exec i s = .next t ∧
    (t.status = ErrorKind.invalidCharacterError.code ↔
      admits s.cfg.ibufCap s.ilen = true ∧ CharCause i s.cfg.alphabets s.input)

/-- R154: `ResourceExhaustedError` is reported for exactly three causes; with all three capacities unbounded,
never. -/
def Obligations.ResourceExhaustedCauses : Prop :=
  (∀ (i : Instr) (s : State), ∃ t, exec i s = .next t ∧
    (t.status = ErrorKind.resourceExhaustedError.code ↔
      admits s.cfg.ibufCap s.ilen = false ∨ CapacityCause i s.cfg s.input)) ∧
  (∀ (i : Instr) (s t : State), s.cfg.ibufCap = none → s.cfg.obufCap = none → s.cfg.accCap = none →
    exec i s = .next t → t.status ≠ ErrorKind.resourceExhaustedError.code)

/-- R155: `UnsupportedFormatError` is reported exactly when the tag is no radix. -/
def Obligations.UnsupportedFormatCause : Prop :=
  ∀ (s : State) (w : CmdWord) (rest : List HostMove), s.host = .writeCmd w :: rest →
    ∃ t, step s = .next t ∧
      (t.status = ErrorKind.unsupportedFormatError.code ↔ (fmtField w).toNat ∉ RADIXES)

/-- R157: one kind is reported, the first that applies in the order tag, input length, `LengthError`,
`InvalidCharacterError`, capacity; `OK` when none applies. -/
def Obligations.FirstCauseIsReported : Prop :=
  ∀ (s : State) (w : CmdWord) (rest : List HostMove), s.host = .writeCmd w :: rest →
    ∃ t, step s = .next t ∧
      ((fmtField w).toNat ∉ RADIXES → t.status = 0x04#8) ∧
      ∀ i, decode w = .ok i →
        (admits s.cfg.ibufCap s.ilen = false → t.status = 0x03#8) ∧
        (admits s.cfg.ibufCap s.ilen = true →
          (LengthCause i s.input → t.status = 0x01#8) ∧
          (¬ LengthCause i s.input →
            (CharCause i s.cfg.alphabets s.input → t.status = 0x02#8) ∧
            (¬ CharCause i s.cfg.alphabets s.input →
              (CapacityCause i s.cfg s.input → t.status = 0x03#8) ∧
              (¬ CapacityCause i s.cfg s.input → t.status = 0x00#8))))

/-! ## What a command reads and changes -/

/-- R80, R10 to R17: a command changes `STATUS`, `OLEN` and `OBUF` only (`CMD` is written by the step before it).
Every byte of `IBUF` is as before, and every byte of `OBUF` at or above `OLEN` has no specified value. -/
def Obligations.CommandFrame : Prop :=
  ∀ (i : Instr) (s : State), ∃ t, exec i s = .next t ∧
    t.cfg = s.cfg ∧ t.cmd = s.cmd ∧ t.ilen = s.ilen ∧ t.ibuf = s.ibuf ∧ t.host = s.host ∧ t.rdata = s.rdata ∧
    (∀ a, t.ibuf.read a = s.ibuf.read a) ∧ t.ObufUnspecifiedFrom t.olen

/-- R48, R20: the outcome depends on `IBUF[0..ILEN)`, `ILEN` and the command only: not on a byte at or above `ILEN`,
not on an earlier `STATUS`, `OLEN` or `OBUF`. The input bytes are written ones. -/
def Obligations.CommandIsPure : Prop :=
  ∀ (i : Instr) (s s' : State), s.cfg = s'.cfg → s.ilen = s'.ilen →
    (∀ k, k < s.ilen → ∃ v, s.ibuf.read k = some v ∧ s'.ibuf.read k = some v) →
    ∃ t t', exec i s = .next t ∧ exec i s' = .next t' ∧
      t.status = t'.status ∧ t.olen = t'.olen ∧ ∀ j, t.obuf.read j = t'.obuf.read j

/-- R80 (`In = IBUF[0..ILEN)`): the input has `ILEN` bytes and its written bytes are those of `IBUF`. The last clause
is the model's form of an unspecified byte (entry 3): a free value, about which nothing is known. -/
def Obligations.InputIsBufferPrefix : Prop :=
  ∀ s : State, s.input.length = s.ilen ∧
    (∀ k v, k < s.ilen → s.ibuf.read k = some v → s.input[k]? = some v) ∧
    (∀ k, k < s.ilen → s.ibuf.read k = none → s.input[k]? = some (Config.freeByte (s.draws + k)))

/-! ## The Fixed-Group commands -/

/-- R95: `ENC16` writes the symbols of the high and the low nibble of each byte, `OLEN = 2n`, and has no error of its
own. -/
def Obligations.Enc16WritesNibbleSymbols : Prop :=
  encode .enc16 = 0x10#8 ∧
  (∀ s : State, s.cfg.Wf → s.Fits 0 (2 * s.ilen) →
    ∃ t, exec .enc16 s = .next t ∧ t.status = 0x00#8 ∧ t.olen = 2 * s.ilen ∧
      ∀ k v, s.input[k]? = some v → ∃ h l, s.cfg.alphabets.alpha16[v.toNat / 16]? = some h ∧
        s.cfg.alphabets.alpha16[v.toNat % 16]? = some l ∧
        t.obuf.read (2 * k) = some h ∧ t.obuf.read (2 * k + 1) = some l) ∧
  (∀ s : State, ∃ t, exec .enc16 s = .next t ∧
    (t.status = 0x00#8 ∨ t.status = ErrorKind.resourceExhaustedError.code))

/-- R96: `DEC16` fails with `LengthError` on an odd length whatever the characters are, with `InvalidCharacterError`
on an even length and a foreign character, and otherwise joins each pair of digits into a byte. -/
def Obligations.Dec16JoinsNibbles : Prop :=
  encode .dec16 = 0x90#8 ∧
  (∀ s : State, admits s.cfg.ibufCap s.ilen = true → s.ilen % 2 = 1 →
    ∃ t, exec .dec16 s = .next t ∧ t.ExpectErr .lengthError) ∧
  (∀ s : State, admits s.cfg.ibufCap s.ilen = true → s.ilen % 2 = 0 →
    (∃ c ∈ s.input, c ∉ s.cfg.alphabets.alpha16) →
    ∃ t, exec .dec16 s = .next t ∧ t.ExpectErr .invalidCharacterError) ∧
  (∀ s : State, s.cfg.Wf → s.Fits 0 (s.ilen / 2) → s.ilen % 2 = 0 →
    (∀ c ∈ s.input, c ∈ s.cfg.alphabets.alpha16) →
    ∃ t, exec .dec16 s = .next t ∧ t.status = 0x00#8 ∧ t.olen = s.ilen / 2 ∧
      ∀ k, k < s.ilen / 2 → ∃ h l, s.cfg.alphabets.alpha16[h]? = s.input[2 * k]? ∧
        s.cfg.alphabets.alpha16[l]? = s.input[2 * k + 1]? ∧ h < 16 ∧ l < 16 ∧
        t.obuf.read k = some (BitVec.ofNat 8 (16 * h + l)))

/-- R97: `ENC32` writes a symbol for every 5 bits of the payload, most significant first, and pads to a multiple
of 8. -/
def Obligations.Enc32WritesFiveBitSymbols : Prop :=
  encode .enc32 = 0x20#8 ∧
  (∀ s : State, s.cfg.Wf → s.Fits 0 (8 * ((s.ilen + 4) / 5)) →
    ∃ t out, exec .enc32 s = .next t ∧ t.ExpectOk out ∧ out.length = 8 * ((s.ilen + 4) / 5) ∧
      IsGroupText 5 s.cfg.alphabets.alpha32 s.input out) ∧
  (∀ s : State, ∃ t, exec .enc32 s = .next t ∧
    (t.status = 0x00#8 ∨ t.status = ErrorKind.resourceExhaustedError.code))

/-- R98: `DEC32` accepts data symbols followed by pad symbols that all lie in the final group, and gives
`floor(5k/8)` bytes, the leading bits of the digits; any other text fails with `InvalidCharacterError`. -/
def Obligations.Dec32UnpacksDigits : Prop :=
  encode .dec32 = 0xA0#8 ∧
  (∀ (s : State) (D : List Nat), s.cfg.Wf → PaddedText 8 s.cfg.alphabets.alpha32 s.input D →
    s.Fits 0 (5 * D.length / 8) →
    ∃ t out, exec .dec32 s = .next t ∧ t.ExpectOk out ∧ out.length = 5 * D.length / 8 ∧
      ∀ p, p < 8 * out.length → streamBit out p = digitStreamBit 5 D p) ∧
  (∀ s : State, admits s.cfg.ibufCap s.ilen = true →
    (¬ ∃ D, PaddedText 8 s.cfg.alphabets.alpha32 s.input D) →
    ∃ t, exec .dec32 s = .next t ∧ t.ExpectErr .invalidCharacterError)

/-- R99: `ENC64` writes a symbol for every 6 bits of the payload, most significant first, and pads to a multiple
of 4. -/
def Obligations.Enc64WritesSixBitSymbols : Prop :=
  encode .enc64 = 0x40#8 ∧
  (∀ s : State, s.cfg.Wf → s.Fits 0 (4 * ((s.ilen + 2) / 3)) →
    ∃ t out, exec .enc64 s = .next t ∧ t.ExpectOk out ∧ out.length = 4 * ((s.ilen + 2) / 3) ∧
      IsGroupText 6 s.cfg.alphabets.alpha64 s.input out) ∧
  (∀ s : State, ∃ t, exec .enc64 s = .next t ∧
    (t.status = 0x00#8 ∨ t.status = ErrorKind.resourceExhaustedError.code))

/-- R100: `DEC64` accepts data symbols followed by pad symbols that all lie in the final group, and gives
`floor(3k/4)` bytes, the leading bits of the digits; any other text fails with `InvalidCharacterError`. -/
def Obligations.Dec64UnpacksDigits : Prop :=
  encode .dec64 = 0xC0#8 ∧
  (∀ (s : State) (D : List Nat), s.cfg.Wf → PaddedText 4 s.cfg.alphabets.alpha64 s.input D →
    s.Fits 0 (3 * D.length / 4) →
    ∃ t out, exec .dec64 s = .next t ∧ t.ExpectOk out ∧ out.length = 3 * D.length / 4 ∧
      ∀ p, p < 8 * out.length → streamBit out p = digitStreamBit 6 D p) ∧
  (∀ s : State, admits s.cfg.ibufCap s.ilen = true →
    (¬ ∃ D, PaddedText 4 s.cfg.alphabets.alpha64 s.input D) →
    ∃ t, exec .dec64 s = .next t ∧ t.ExpectErr .invalidCharacterError)

/-! ## The Big-Integer commands -/

/-- R124: `ENC58` writes one zero symbol per leading zero byte, then the base-58 digits of the rest read as one
big-endian number, with no leading zero digit. -/
def Obligations.Enc58WritesPrefixAndDigits : Prop :=
  encode .enc58 = 0x3A#8 ∧
  (∀ (s : State) (z : Nat) (P : List Byte) (D : List Nat), s.cfg.Wf →
    s.input = List.replicate z 0x00#8 ++ P → P.head? ≠ some 0x00#8 →
    ProperDigits 58 D → num 58 D = num 256 (P.map BitVec.toNat) → s.Fits D.length (z + D.length) →
    ∃ t, exec .enc58 s = .next t ∧
      t.ExpectOk (List.replicate z (symbol s.cfg.alphabets.alpha58 0) ++ D.map (symbol s.cfg.alphabets.alpha58))) ∧
  (∀ s : State, ∃ t, exec .enc58 s = .next t ∧
    (t.status = 0x00#8 ∨ t.status = ErrorKind.resourceExhaustedError.code))

/-- R125: `DEC58` writes one zero byte per leading zero symbol, then the bytes of the number the other symbols stand
for, with no leading zero byte; a foreign character fails with `InvalidCharacterError`. -/
def Obligations.Dec58WritesPrefixAndBytes : Prop :=
  encode .dec58 = 0xBA#8 ∧
  (∀ (s : State) (z : Nat) (D : List Nat) (B : List Byte), s.cfg.Wf →
    s.input = List.replicate z (symbol s.cfg.alphabets.alpha58 0) ++ D.map (symbol s.cfg.alphabets.alpha58) →
    ProperDigits 58 D → B.head? ≠ some 0x00#8 → num 256 (B.map BitVec.toNat) = num 58 D →
    s.Fits B.length (z + B.length) →
    ∃ t, exec .dec58 s = .next t ∧ t.ExpectOk (List.replicate z 0x00#8 ++ B)) ∧
  (∀ s : State, admits s.cfg.ibufCap s.ilen = true → (∃ c ∈ s.input, c ∉ s.cfg.alphabets.alpha58) →
    ∃ t, exec .dec58 s = .next t ∧ t.ExpectErr .invalidCharacterError)

/-- R126: `ENC62` writes the base-62 digits of the payload read as one big-endian number: leading zero bytes leave no
trace. -/
def Obligations.Enc62WritesDigits : Prop :=
  encode .enc62 = 0x3E#8 ∧
  (∀ (s : State) (D : List Nat), s.cfg.Wf → ProperDigits 62 D → num 62 D = num 256 (s.input.map BitVec.toNat) →
    s.Fits D.length D.length →
    ∃ t, exec .enc62 s = .next t ∧ t.ExpectOk (D.map (symbol s.cfg.alphabets.alpha62))) ∧
  (∀ s : State, ∃ t, exec .enc62 s = .next t ∧
    (t.status = 0x00#8 ∨ t.status = ErrorKind.resourceExhaustedError.code))

/-- R127: `DEC62` writes the bytes of the number the symbols stand for, with no leading zero byte; a foreign character
fails with `InvalidCharacterError`. -/
def Obligations.Dec62WritesBytes : Prop :=
  encode .dec62 = 0xBE#8 ∧
  (∀ (s : State) (D : List Nat) (B : List Byte), s.cfg.Wf → (∀ d ∈ D, d < 62) →
    s.input = D.map (symbol s.cfg.alphabets.alpha62) → B.head? ≠ some 0x00#8 →
    num 256 (B.map BitVec.toNat) = num 62 D → s.Fits B.length B.length →
    ∃ t, exec .dec62 s = .next t ∧ t.ExpectOk B) ∧
  (∀ s : State, admits s.cfg.ibufCap s.ilen = true → (∃ c ∈ s.input, c ∉ s.cfg.alphabets.alpha62) →
    ∃ t, exec .dec62 s = .next t ∧ t.ExpectErr .invalidCharacterError)

/-! ## The Block-Radix-85 commands -/

/-- R141: `ENC85` writes five symbols per four bytes, the digits of the big-endian value of the block, most
significant first; the last block is filled with zero bytes. -/
def Obligations.Enc85WritesBlockDigits : Prop :=
  encode .enc85 = 0x55#8 ∧
  (∀ s : State, s.cfg.Wf → s.Fits 0 (5 * ((s.ilen + 3) / 4)) →
    ∃ t, exec .enc85 s = .next t ∧ t.status = 0x00#8 ∧ t.olen = 5 * ((s.ilen + 3) / 4) ∧
      ∀ q, 4 * q < s.ilen → ∃ d0 d1 d2 d3 d4, d0 < 85 ∧ d1 < 85 ∧ d2 < 85 ∧ d3 < 85 ∧ d4 < 85 ∧
        d0 * 85 ^ 4 + d1 * 85 ^ 3 + d2 * 85 ^ 2 + d3 * 85 + d4 =
          (s.input.getD (4 * q) 0#8).toNat * 2 ^ 24 + (s.input.getD (4 * q + 1) 0#8).toNat * 2 ^ 16 +
            (s.input.getD (4 * q + 2) 0#8).toNat * 2 ^ 8 + (s.input.getD (4 * q + 3) 0#8).toNat ∧
        t.obuf.read (5 * q) = s.cfg.alphabets.alpha85[d0]? ∧
        t.obuf.read (5 * q + 1) = s.cfg.alphabets.alpha85[d1]? ∧
        t.obuf.read (5 * q + 2) = s.cfg.alphabets.alpha85[d2]? ∧
        t.obuf.read (5 * q + 3) = s.cfg.alphabets.alpha85[d3]? ∧
        t.obuf.read (5 * q + 4) = s.cfg.alphabets.alpha85[d4]?) ∧
  (∀ s : State, ∃ t, exec .enc85 s = .next t ∧
    (t.status = 0x00#8 ∨ t.status = ErrorKind.resourceExhaustedError.code))

/-- R142, R145: `DEC85` drops whitespace, then tests the length, then the characters, and writes four bytes per five
symbols: the big-endian bytes of the group's value modulo 2^32. -/
def Obligations.Dec85WritesGroupBytes : Prop :=
  encode .dec85 = 0xD5#8 ∧
  (∀ s : State, admits s.cfg.ibufCap s.ilen = true → (nonWhitespace s.input).length % 5 ≠ 0 →
    ∃ t, exec .dec85 s = .next t ∧ t.ExpectErr .lengthError) ∧
  (∀ s : State, admits s.cfg.ibufCap s.ilen = true → (nonWhitespace s.input).length % 5 = 0 →
    (∃ c ∈ nonWhitespace s.input, c ∉ s.cfg.alphabets.alpha85) →
    ∃ t, exec .dec85 s = .next t ∧ t.ExpectErr .invalidCharacterError) ∧
  (∀ (s : State) (D : List Nat) (Q : Nat), s.cfg.Wf → (∀ d ∈ D, d < 85) → D.length = 5 * Q →
    nonWhitespace s.input = D.map (symbol s.cfg.alphabets.alpha85) → s.Fits 0 (4 * Q) →
    ∃ t, exec .dec85 s = .next t ∧ t.status = 0x00#8 ∧ t.olen = 4 * Q ∧
      ∀ q u, q < Q → u < 4 → t.obuf.read (4 * q + u) = some (BitVec.ofNat 8
        ((D.getD (5 * q) 0 * 85 ^ 4 + D.getD (5 * q + 1) 0 * 85 ^ 3 + D.getD (5 * q + 2) 0 * 85 ^ 2 +
          D.getD (5 * q + 3) 0 * 85 + D.getD (5 * q + 4) 0) % 2 ^ 32 / 2 ^ (8 * (3 - u)))))

/-! ## The host's moves, reset, and the whole machine -/

/-- The invariant of the model holds after reset: the default parameters meet R4 and R30 among its clauses. The
capacities and the three model fields of the reset state are the model's choice (entries 1, 3, 4, 9, 12). -/
def Obligations.ResetMeetsInvariant : Prop := State.reset.Inv

/-- Every step keeps the invariant, from every state that meets it: the lengths fit their registers, the buffers stay
in canonical form where there is storage, `STATUS` stays one of the five codes, the specified bytes of `OBUF` are
exactly `OBUF[0..OLEN)`, and a failure leaves `OLEN` 0. -/
def Obligations.StepKeepsInvariant : Prop := ∀ s t : State, s.Inv → step s = .next t → t.Inv

/-- R17: every read is answered and changes nothing of the block; a register gives its value, a specified byte its
value. -/
def Obligations.ReadsChangeNothing : Prop :=
  ∀ (s : State) (rest : List HostMove),
    (∀ r, s.host = .readReg r :: rest →
      ∃ t, step s = .next t ∧ SameBlock s t ∧ t.host = rest ∧ t.rdata = some (s.regValue r)) ∧
    (∀ i, s.host = .readIbuf i :: rest → hasStorage s.cfg.ibufCap i = true →
      ∃ t, step s = .next t ∧ SameBlock s t ∧ t.host = rest ∧
        ∀ v, s.ibuf.read i = some v → t.rdata = some v.toNat) ∧
    (∀ j, s.host = .readObuf j :: rest → hasStorage s.cfg.obufCap j = true →
      ∃ t, step s = .next t ∧ SameBlock s t ∧ t.host = rest ∧
        ∀ v, s.obuf.read j = some v → t.rdata = some v.toNat)

/-- R15, R52: a write of `IBUF[i]` is seen by a read of that index, and nothing else changes. -/
def Obligations.IbufWriteStoresOneByte : Prop :=
  ∀ (s : State) (i : Nat) (v : Byte) (rest : List HostMove), s.host = .writeIbuf i v :: rest →
    hasStorage s.cfg.ibufCap i = true →
    ∃ t, step s = .next t ∧ t.ibuf.read i = some v ∧ (∀ a, a ≠ i → t.ibuf.read a = s.ibuf.read a) ∧
      t = { s with host := rest, ibuf := t.ibuf }

/-- R12: any value the register holds may be written to `ILEN`, above `IBUF_CAP` too, and nothing else changes; the
stop on a value of more than `LEN_W` bits is the model's choice (entry 6). -/
def Obligations.IlenWriteStoresLength : Prop :=
  ∀ (s : State) (n : Nat) (rest : List HostMove), s.host = .writeIlen n :: rest →
    (lengthFits s.cfg.lenW n = true → step s = .next { s with host := rest, ilen := n }) ∧
    (lengthFits s.cfg.lenW n = false → step s = .refused (.lengthTooWide n))

/-- R13, R14, R16: a host write to `OLEN`, `STATUS` or `OBUF` is ignored. -/
def Obligations.ReadOnlyWritesIgnored : Prop :=
  ∀ (s : State) (rest : List HostMove),
    (∀ n, s.host = .writeOlen n :: rest → step s = .next { s with host := rest }) ∧
    (∀ v, s.host = .writeStatus v :: rest → step s = .next { s with host := rest }) ∧
    (∀ j v, s.host = .writeObuf j v :: rest → hasStorage s.cfg.obufCap j = true →
      step s = .next { s with host := rest })

/-- R47, U4: a host access to a buffer at or beyond its capacity stops the machine (the model's form of "no meaning",
entry 7). -/
def Obligations.AccessBeyondCapacityFaults : Prop :=
  ∀ (s : State) (i c : Nat) (v : Byte) (rest : List HostMove), c ≤ i →
    (s.cfg.ibufCap = some c → s.host = .readIbuf i :: rest ∨ s.host = .writeIbuf i v :: rest →
      step s = .fault (.bufferIndexBeyondCapacity i)) ∧
    (s.cfg.obufCap = some c → s.host = .readObuf i :: rest ∨ s.host = .writeObuf i v :: rest →
      step s = .fault (.bufferIndexBeyondCapacity i))

/-- R36, R170, R172: reset gives the four registers their values and leaves every buffer byte without one, runs no
command, and keeps the tables; the state after power-on has the same values. -/
def Obligations.ResetValues : Prop :=
  (∀ (s : State) (rest : List HostMove), s.host = .reset :: rest →
    ∃ t, step s = .next t ∧ t.cmd = 0x00#8 ∧ t.ilen = 0 ∧ t.olen = 0 ∧ t.status = 0x00#8 ∧
      (∀ a, t.ibuf.read a = none) ∧ (∀ a, t.obuf.read a = none) ∧ t.cfg = s.cfg ∧ t.host = rest) ∧
  (State.reset.cmd = 0x00#8 ∧ State.reset.ilen = 0 ∧ State.reset.olen = 0 ∧ State.reset.status = 0x00#8 ∧
    (∀ a, State.reset.ibuf.read a = none) ∧ (∀ a, State.reset.obuf.read a = none) ∧
    (∃ e, decode State.reset.cmd = .error e))

/-- R19, R164: with no move of the host to come the block holds its state and does nothing. -/
def Obligations.IdleHoldsState : Prop := ∀ s : State, s.host = [] → step s = .next s

/-- R5, R21, R172: no step changes a parameter or a table. -/
def Obligations.ParametersNeverChange : Prop := ∀ s t : State, step s = .next t → t.cfg = s.cfg

/-- R160, R80, R13 to R16: `STATUS`, `OLEN` and `OBUF` change only in a `CMD` write or a reset, and `IBUF` only in an
`IBUF` write, a `MOVE` or a reset, each write by name or at a bus address. -/
def Obligations.OnlyCommandsChangeResults : Prop :=
  ∀ s t : State, step s = .next t →
    ((t.status ≠ s.status ∨ t.olen ≠ s.olen ∨ t.obuf ≠ s.obuf) →
      ∃ a rest, s.host = a :: rest ∧ (a = .reset ∨ (∃ w, a = .writeCmd w) ∨
        ∃ addr v, a = .busWrite addr v ∧ busPlace s.cfg.regmap addr = some (.reg .cmd))) ∧
    (t.ibuf ≠ s.ibuf → ∃ a rest, s.host = a :: rest ∧ (a = .reset ∨ a = .move ∨ (∃ i v, a = .writeIbuf i v) ∨
        ∃ addr v i, a = .busWrite addr v ∧ busPlace s.cfg.regmap addr = some (.ibuf i)))

/-- R68: `MOVE` copies the result over the input, byte by byte, and then sets `ILEN` to `OLEN`; bytes of `IBUF` above
stay; it runs no command. Where `OLEN > IBUF_CAP` the host cannot perform it. -/
def Obligations.MoveCopiesResult : Prop :=
  ∀ (s : State) (out : List Byte) (rest : List HostMove), s.host = .move :: rest →
    s.olen = out.length → (∀ j, j < out.length → s.obuf.read j = out[j]?) →
    (admits s.cfg.ibufCap s.olen = true → lengthFits s.cfg.lenW s.olen = true →
      ∃ t, step s = .next t ∧ t.ilen = s.olen ∧ (∀ j, j < out.length → t.ibuf.read j = out[j]?) ∧
        (∀ j, out.length ≤ j → t.ibuf.read j = s.ibuf.read j) ∧ t.host = rest ∧
        t.cfg = s.cfg ∧ t.cmd = s.cmd ∧ t.status = s.status ∧ t.olen = s.olen ∧ t.obuf = s.obuf) ∧
    (admits s.cfg.ibufCap s.olen = false → step s = .refused (.moveDoesNotFit s.olen))

/-- R68: the moves of a `LOAD` line put the bytes into `IBUF` from index 0 and their number into `ILEN`, and change
nothing else. -/
def Obligations.LoadFillsInput : Prop :=
  ∀ (s : State) (data : List Byte) (rest : List HostMove), s.host = (ScriptLine.load data).moves ++ rest →
    admits s.cfg.ibufCap data.length = true → lengthFits s.cfg.lenW data.length = true →
    ∃ t : State, Sys2Proof.core.run (data.length + 1) s = .next t ∧ t.ilen = data.length ∧
      (∀ j, j < data.length → t.ibuf.read j = data[j]?) ∧
      (∀ j, data.length ≤ j → t.ibuf.read j = s.ibuf.read j) ∧
      t = { s with host := rest, ilen := data.length, ibuf := t.ibuf }

/-! ## Tables and numbers -/

/-- R22: the inverse lookup gives the index of a symbol, and `NOTFOUND` exactly for the bytes that are none. -/
def Obligations.InverseLookupInverts : Prop :=
  ∀ table : List Byte, table.Nodup →
    (∀ (i : Nat) (c : Byte), table[i]? = some c → inverse table c = some i) ∧
    (∀ c : Byte, inverse table c = none ↔ ∀ i : Nat, table[i]? ≠ some c)

/-- R121: `num_R` is the positional sum, and `digits_R(N)` is the one digit sequence below the radix, with no leading
zero digit, that stands for `N`; 0 has no digit. -/
def Obligations.DigitsAreUnique : Prop :=
  (∀ (R : Nat) (D : List Nat),
    num R D = ∑ i ∈ Finset.range D.length, D.getD i 0 * R ^ (D.length - 1 - i)) ∧
  ∀ R N : Nat, 2 ≤ R → ProperDigits R (digits R N) ∧ num R (digits R N) = N ∧
    ∀ D, ProperDigits R D → num R D = N → D = digits R N

/-! ## Round trips and lengths -/

/-- R104 for Base16. -/
def Obligations.Base16RoundTrip : Prop :=
  ∀ (a : Alphabets) (P : List Byte), alphabetsOk a = true → ∃ T, enc16 a P = .ok T ∧ dec16 a T = .ok P

/-- R104 for Base32 and Base64: what the encoder pads, the decoder accepts and cuts. -/
def Obligations.Base32Base64RoundTrip : Prop :=
  ∀ (a : Alphabets) (P : List Byte), alphabetsOk a = true →
    (∃ T, enc32 a P = .ok T ∧ dec32 a T = .ok P) ∧ (∃ T, enc64 a P = .ok T ∧ dec64 a T = .ok P)

/-- R132 for Base58, in both directions: every payload comes back, and every valid text is the text of its payload. -/
def Obligations.Base58RoundTrip : Prop :=
  ∀ a : Alphabets, alphabetsOk a = true →
    (∀ P, ∃ T, enc58 a P = .ok T ∧ dec58 a T = .ok P) ∧
    (∀ T, (∀ c ∈ T, c ∈ a.alpha58) → ∃ P, dec58 a T = .ok P ∧ enc58 a P = .ok T)

/-- R132, R134 for Base62: a payload comes back less its leading zero bytes, which leave no trace in the text. -/
def Obligations.Base62RoundTripDropsZeros : Prop :=
  ∀ (a : Alphabets) (z : Nat) (P : List Byte), alphabetsOk a = true → P.head? ≠ some 0x00#8 →
    enc62 a (List.replicate z 0x00#8 ++ P) = enc62 a P ∧ ∃ T, enc62 a P = .ok T ∧ dec62 a T = .ok P

/-- R147: a payload comes back with the zero bytes that filled its last block. -/
def Obligations.Base85RoundTripFillsBlock : Prop :=
  ∀ (a : Alphabets) (P : List Byte), alphabetsOk a = true →
    ∃ T, enc85 a P = .ok T ∧ dec85 a T = .ok (P ++ List.replicate ((4 - P.length % 4) % 4) 0x00#8)

/-- R93, R103: `DEC32` and `DEC64` treat a short last group as if its pad symbols were there. -/
def Obligations.MissingPaddingIsAccepted : Prop :=
  ∀ (a : Alphabets) (T : List Byte), alphabetsOk a = true →
    dec32 a (T ++ List.replicate ((8 - T.length % 8) % 8) PAD) = dec32 a T ∧
    dec64 a (T ++ List.replicate ((4 - T.length % 4) % 4) PAD) = dec64 a T

/-- R105, R85, R148: the lengths of the results, for the formats that have a formula. -/
def Obligations.ResultLengths : Prop :=
  ∀ (a : Alphabets) (In out : List Byte), alphabetsOk a = true →
    (enc16 a In = .ok out → out.length = 2 * In.length) ∧
    (enc32 a In = .ok out → out.length = 8 * ((In.length + 4) / 5)) ∧
    (enc64 a In = .ok out → out.length = 4 * ((In.length + 2) / 3)) ∧
    (enc85 a In = .ok out → out.length = 5 * ((In.length + 3) / 4)) ∧
    (dec16 a In = .ok out → out.length = In.length / 2) ∧
    (dec32 a In = .ok out → out.length = 5 * (In.filter (· != PAD)).length / 8) ∧
    (dec64 a In = .ok out → out.length = 3 * (In.filter (· != PAD)).length / 4) ∧
    (dec85 a In = .ok out → 5 * out.length = 4 * (nonWhitespace In).length)

/-- R133: bounds on the lengths of the Big-Integer results, the prefix apart. -/
def Obligations.BigIntegerLengthBounds : Prop :=
  ∀ (a : Alphabets) (z : Nat) (P T out : List Byte), alphabetsOk a = true →
    (enc58 a (List.replicate z 0x00#8 ++ P) = .ok out → P.head? ≠ some 0x00#8 →
      out.length ≤ z + 2 * P.length ∧ out.length ≤ z + 11 * ((P.length + 7) / 8)) ∧
    (enc62 a P = .ok out → out.length ≤ 2 * P.length ∧ out.length ≤ 11 * ((P.length + 7) / 8)) ∧
    (dec58 a (List.replicate z (symbol a.alpha58 0) ++ T) = .ok out → T.head? ≠ some (symbol a.alpha58 0) →
      out.length ≤ z + T.length ∧ out.length ≤ z + 3 * ((T.length + 3) / 4)) ∧
    (dec62 a T = .ok out → out.length ≤ T.length ∧ out.length ≤ 3 * ((T.length + 3) / 4))

/-! ## The datapaths compute the functions -/

/-- R101: the Fixed-Group encoder datapath computes `enc_16`, `enc_32`, `enc_64`. -/
def Obligations.FixedEncoderDatapath : Prop :=
  ∀ (a : Alphabets) (P : List Byte),
    enc16 a P = .ok (fixedEncode 4 none a.alpha16 P) ∧
    enc32 a P = .ok (fixedEncode 5 (some 8) a.alpha32 P) ∧
    enc64 a P = .ok (fixedEncode 6 (some 4) a.alpha64 P)

/-- R102: the Fixed-Group decoder datapath computes `dec_32`, `dec_64`, failures included. -/
def Obligations.FixedDecoderDatapath : Prop :=
  ∀ (a : Alphabets) (T : List Byte), alphabetsOk a = true →
    dec32 a T = fixedDecode 5 8 a.alpha32 T ∧ dec64 a T = fixedDecode 6 4 a.alpha64 T

/-- R128, R130, R86: the Big-Integer encoder datapath computes `enc_58`, `enc_62`, and its final `ALEN` is
`acc_need`. -/
def Obligations.BigEncoderDatapath : Prop :=
  ∀ (a : Alphabets) (P : List Byte),
    enc58 a P = .ok (bigEncode 58 true a.alpha58 P) ∧ enc62 a P = .ok (bigEncode 62 false a.alpha62 P) ∧
    (bigLoop 256 58 true (toNats P)).acc.length = accNeedOf .enc58 a P ∧
    (bigLoop 256 62 false (toNats P)).acc.length = accNeedOf .enc62 a P

/-- R129, R130, R86: the Big-Integer decoder datapath computes `dec_58`, `dec_62`, and its final `ALEN` is
`acc_need`. -/
def Obligations.BigDecoderDatapath : Prop :=
  ∀ (a : Alphabets) (T : List Byte),
    dec58 a T = bigDecode 58 true a.alpha58 T ∧ dec62 a T = bigDecode 62 false a.alpha62 T ∧
    (∀ D, lookupAll a.alpha58 T = some D → (bigLoop 58 256 true D).acc.length = accNeedOf .dec58 a T) ∧
    (∀ D, lookupAll a.alpha62 T = some D → (bigLoop 62 256 false D).acc.length = accNeedOf .dec62 a T)

/-- R143, R144: the Block-Radix-85 datapaths compute `enc_85` and `dec_85`. -/
def Obligations.BlockDatapaths : Prop :=
  ∀ (a : Alphabets) (In : List Byte),
    enc85 a In = .ok (block85Encode a.alpha85 In.length In) ∧ dec85 a In = block85Decode a.alpha85 In

/-- R32, R101: between input bytes `NBITS` is below `b` and `BITBUF` holds `NBITS` bits; just after a byte is taken
in they are at most `b - 1 + 8` (13 for Base64). -/
def Obligations.FixedRegisterBounds : Prop :=
  ∀ (b : Nat) (table P : List Byte) (v : Byte), b ∈ [4, 5, 6] →
    (fixedEncLoop b table P).nbits < b ∧
    (fixedEncLoop b table P).bitbuf < 2 ^ (fixedEncLoop b table P).nbits ∧
    ((fixedEncLoop b table P).take 8 v.toNat).nbits ≤ b - 1 + 8 ∧
    ((fixedEncLoop b table P).take 8 v.toNat).bitbuf < 2 ^ (b - 1 + 8)

/-- R131: the carry stays at most 255 on encode and at most `r - 1` on decode, the flush adds at most 2 digits or 1
byte, the digits stay in range, and `ALEN` never decreases. -/
def Obligations.BigRegisterBounds : Prop :=
  ∀ (r : Nat) (acc : List Nat) (d : Nat), r ∈ [58, 62] →
    ((∀ x ∈ acc, x < r) → d ≤ 255 →
      (mulAdd 256 r acc d).2 ≤ 255 ∧
      acc.length ≤ (bigStep 256 r { z := 0, acc := acc, carry := 0 } d).acc.length ∧
      (bigStep 256 r { z := 0, acc := acc, carry := 0 } d).acc.length ≤ acc.length + 2 ∧
      ∀ x ∈ (bigStep 256 r { z := 0, acc := acc, carry := 0 } d).acc, x < r) ∧
    ((∀ x ∈ acc, x < 256) → d ≤ r - 1 →
      (mulAdd r 256 acc d).2 ≤ r - 1 ∧
      acc.length ≤ (bigStep r 256 { z := 0, acc := acc, carry := 0 } d).acc.length ∧
      (bigStep r 256 { z := 0, acc := acc, carry := 0 } d).acc.length ≤ acc.length + 1 ∧
      ∀ x ∈ (bigStep r 256 { z := 0, acc := acc, carry := 0 } d).acc, x < 256)

/-! ## The bus -/

/-- R4, R50: `REGMAP` puts registers and buffer bytes at bus addresses; an access at such an address is the access by
name and index, and an address where it puts nothing is none of the block's. The two stops, and that the first window
that has an address decides, are the model's choice (entry 12). -/
def Obligations.BusAccessIsNamedAccess : Prop :=
  (∀ (s : State) (addr v : Nat) (p : Place) (rest : List HostMove), busPlace s.cfg.regmap addr = some p →
    (s.host = .busRead addr :: rest → step s = step { s with host := readMove p :: rest }) ∧
    (s.host = .busWrite addr v :: rest →
      (placeTakes v p → step s = step { s with host := writeMove v p :: rest }) ∧
      (¬ placeTakes v p → step s = .refused (.busValueTooWide v)))) ∧
  (∀ (s : State) (addr v : Nat) (rest : List HostMove), busPlace s.cfg.regmap addr = none →
    s.host = .busRead addr :: rest ∨ s.host = .busWrite addr v :: rest →
    step s = .refused (.unmappedBusAddress addr)) ∧
  (∀ (before after : List BusWindow) (w : BusWindow) (addr : Nat) (p : Place),
    (∀ u ∈ before, windowPlace addr u = none) → windowPlace addr w = some p →
    busPlace (before ++ w :: after) addr = some p) ∧
  (∀ (addr a base first : Nat) (r : HostReg) (count : Option Nat) (p : Place),
    (windowPlace addr (.reg a r) = some p ↔ addr = a ∧ p = .reg r) ∧
    (windowPlace addr (.ibuf base first count) = some p ↔
      ∃ k, addr = base + k ∧ (∀ c ∈ count, k < c) ∧ p = .ibuf (first + k)) ∧
    (windowPlace addr (.obuf base first count) = some p ↔
      ∃ k, addr = base + k ∧ (∀ c ∈ count, k < c) ∧ p = .obuf (first + k)))
end

