-- ==== Sys2Proof/Laws/BigInt.lean ====
section
/-! SUPPORT. Numbers and their digits (R121). -/

namespace Sys2Proof.Machine

@[simp] theorem lowDigits_zero_right (R fuel : Nat) : lowDigits R fuel 0 = [] := by cases fuel <;> simp [lowDigits]

/-- Enough fuel is enough: any two amounts a number is below give the same digits. -/
theorem lowDigits_fuel {R : Nat} (hR : 2 ≤ R) {f g N : Nat} (hf : N < 2 ^ f) (hg : N < 2 ^ g) :
    lowDigits R f N = lowDigits R g N := by
  induction f generalizing g N with
  | zero => obtain rfl : N = 0 := by simpa using hf
            simp
  | succ f ih =>
    cases g with
    | zero => obtain rfl : N = 0 := by simpa using hg
              simp
    | succ g =>
      simp only [lowDigits]
      split
      · rfl
      · have hle : N / R ≤ N / 2 := Nat.div_le_div_left hR (by omega)
        rw [ih (g := g) (by rw [Nat.pow_succ] at hf; omega) (by rw [Nat.pow_succ] at hg; omega)]

@[simp] theorem digits_zero (R : Nat) : digits R 0 = [] := by simp [digits]

/-- The last digit is the remainder, the digits before it those of the quotient (R121). -/
theorem digits_pos {R : Nat} (hR : 2 ≤ R) {N : Nat} (hN : N ≠ 0) : digits R N = digits R (N / R) ++ [N % R] := by
  have hle : N / R ≤ N / 2 := Nat.div_le_div_left hR (by omega)
  have hlt : N < 2 ^ (N.log2 + 1) := Nat.lt_log2_self
  have hq : N / R < 2 ^ N.log2 := by rw [Nat.pow_succ] at hlt; omega
  rw [digits, lowDigits, if_neg hN, List.reverse_cons, digits, lowDigits_fuel hR hq Nat.lt_log2_self]

@[simp] theorem num_nil (R : Nat) : num R [] = 0 := rfl

theorem num_append (R : Nat) (D E : List Nat) : num R (D ++ E) = num R D * R ^ E.length + num R E := by
  induction D with
  | nil => simp
  | cons d D ih => simp [num, ih, pow_add]; ring

/-- The digits of a number stand for it. -/
theorem num_digits {R : Nat} (hR : 2 ≤ R) (N : Nat) : num R (digits R N) = N := by
  induction N using Nat.strong_induction_on with
  | _ N ih =>
    by_cases hN : N = 0
    · simp [hN]
    · rw [digits_pos hR hN, num_append, ih _ (Nat.div_lt_self (by omega) (by omega))]
      simpa [num] using Nat.div_add_mod' N R

/-- Every digit is below the radix. -/
theorem digits_lt {R : Nat} (hR : 2 ≤ R) (N : Nat) : ∀ d ∈ digits R N, d < R := by
  induction N using Nat.strong_induction_on with
  | _ N ih =>
    by_cases hN : N = 0
    · simp [hN]
    · intro d hd
      rw [digits_pos hR hN, List.mem_append, List.mem_singleton] at hd
      rcases hd with hd | rfl
      · exact ih _ (Nat.div_lt_self (by omega) (by omega)) d hd
      · exact Nat.mod_lt _ (by omega)

end Sys2Proof.Machine
end

