-- ==== Sys2Proof/Laws/State.lean ====
section
/-! SUPPORT. One lemma per field per update of the state, true by definition. -/

namespace Sys2Proof.Machine

variable (s : State)

/-! ## a success (R83) -/

@[simp] theorem State.succeed_cfg (out : List Byte) : (s.succeed out).cfg = s.cfg := rfl
@[simp] theorem State.succeed_cmd (out : List Byte) : (s.succeed out).cmd = s.cmd := rfl
@[simp] theorem State.succeed_ilen (out : List Byte) : (s.succeed out).ilen = s.ilen := rfl
@[simp] theorem State.succeed_olen (out : List Byte) : (s.succeed out).olen = out.length := rfl
@[simp] theorem State.succeed_status (out : List Byte) : (s.succeed out).status = statusOk := rfl
@[simp] theorem State.succeed_ibuf (out : List Byte) : (s.succeed out).ibuf = s.ibuf := rfl
@[simp] theorem State.succeed_obuf (out : List Byte) : (s.succeed out).obuf = Memory.ofBytes out := rfl
@[simp] theorem State.succeed_host (out : List Byte) : (s.succeed out).host = s.host := rfl
@[simp] theorem State.succeed_rdata (out : List Byte) : (s.succeed out).rdata = s.rdata := rfl
@[simp] theorem State.succeed_draws (out : List Byte) : (s.succeed out).draws = s.draws := rfl

/-! ## a failure (R84) -/

@[simp] theorem State.fail_cfg (k : ErrorKind) : (s.fail k).cfg = s.cfg := rfl
@[simp] theorem State.fail_cmd (k : ErrorKind) : (s.fail k).cmd = s.cmd := rfl
@[simp] theorem State.fail_ilen (k : ErrorKind) : (s.fail k).ilen = s.ilen := rfl
@[simp] theorem State.fail_olen (k : ErrorKind) : (s.fail k).olen = 0 := rfl
@[simp] theorem State.fail_status (k : ErrorKind) : (s.fail k).status = k.code := rfl
@[simp] theorem State.fail_ibuf (k : ErrorKind) : (s.fail k).ibuf = s.ibuf := rfl
@[simp] theorem State.fail_obuf (k : ErrorKind) : (s.fail k).obuf = [] := rfl
@[simp] theorem State.fail_host (k : ErrorKind) : (s.fail k).host = s.host := rfl
@[simp] theorem State.fail_rdata (k : ErrorKind) : (s.fail k).rdata = s.rdata := rfl
@[simp] theorem State.fail_draws (k : ErrorKind) : (s.fail k).draws = s.draws := rfl

/-! ## counting free bytes (entry 3) -/

@[simp] theorem State.drew_cfg (n : Nat) : (s.drew n).cfg = s.cfg := rfl
@[simp] theorem State.drew_cmd (n : Nat) : (s.drew n).cmd = s.cmd := rfl
@[simp] theorem State.drew_ilen (n : Nat) : (s.drew n).ilen = s.ilen := rfl
@[simp] theorem State.drew_olen (n : Nat) : (s.drew n).olen = s.olen := rfl
@[simp] theorem State.drew_status (n : Nat) : (s.drew n).status = s.status := rfl
@[simp] theorem State.drew_ibuf (n : Nat) : (s.drew n).ibuf = s.ibuf := rfl
@[simp] theorem State.drew_obuf (n : Nat) : (s.drew n).obuf = s.obuf := rfl
@[simp] theorem State.drew_host (n : Nat) : (s.drew n).host = s.host := rfl
@[simp] theorem State.drew_rdata (n : Nat) : (s.drew n).rdata = s.rdata := rfl
@[simp] theorem State.drew_draws (n : Nat) : (s.drew n).draws = s.draws + n := rfl

/-! ## a write of `CMD` (R80) -/

@[simp] theorem State.setCmd_cfg (w : CmdWord) : (s.setCmd w).cfg = s.cfg := rfl
@[simp] theorem State.setCmd_cmd (w : CmdWord) : (s.setCmd w).cmd = w := rfl
@[simp] theorem State.setCmd_ilen (w : CmdWord) : (s.setCmd w).ilen = s.ilen := rfl
@[simp] theorem State.setCmd_olen (w : CmdWord) : (s.setCmd w).olen = s.olen := rfl
@[simp] theorem State.setCmd_status (w : CmdWord) : (s.setCmd w).status = s.status := rfl
@[simp] theorem State.setCmd_ibuf (w : CmdWord) : (s.setCmd w).ibuf = s.ibuf := rfl
@[simp] theorem State.setCmd_obuf (w : CmdWord) : (s.setCmd w).obuf = s.obuf := rfl
@[simp] theorem State.setCmd_host (w : CmdWord) : (s.setCmd w).host = s.host := rfl
@[simp] theorem State.setCmd_rdata (w : CmdWord) : (s.setCmd w).rdata = s.rdata := rfl
@[simp] theorem State.setCmd_draws (w : CmdWord) : (s.setCmd w).draws = s.draws := rfl

/-! ## a write of `ILEN` (R12) -/

@[simp] theorem State.setIlen_cfg (n : Nat) : (s.setIlen n).cfg = s.cfg := rfl
@[simp] theorem State.setIlen_cmd (n : Nat) : (s.setIlen n).cmd = s.cmd := rfl
@[simp] theorem State.setIlen_ilen (n : Nat) : (s.setIlen n).ilen = n := rfl
@[simp] theorem State.setIlen_olen (n : Nat) : (s.setIlen n).olen = s.olen := rfl
@[simp] theorem State.setIlen_status (n : Nat) : (s.setIlen n).status = s.status := rfl
@[simp] theorem State.setIlen_ibuf (n : Nat) : (s.setIlen n).ibuf = s.ibuf := rfl
@[simp] theorem State.setIlen_obuf (n : Nat) : (s.setIlen n).obuf = s.obuf := rfl
@[simp] theorem State.setIlen_host (n : Nat) : (s.setIlen n).host = s.host := rfl
@[simp] theorem State.setIlen_rdata (n : Nat) : (s.setIlen n).rdata = s.rdata := rfl
@[simp] theorem State.setIlen_draws (n : Nat) : (s.setIlen n).draws = s.draws := rfl

/-! ## a write of `IBUF` (R15) -/

@[simp] theorem State.setIbuf_cfg (i : Nat) (v : Byte) : (s.setIbuf i v).cfg = s.cfg := rfl
@[simp] theorem State.setIbuf_cmd (i : Nat) (v : Byte) : (s.setIbuf i v).cmd = s.cmd := rfl
@[simp] theorem State.setIbuf_ilen (i : Nat) (v : Byte) : (s.setIbuf i v).ilen = s.ilen := rfl
@[simp] theorem State.setIbuf_olen (i : Nat) (v : Byte) : (s.setIbuf i v).olen = s.olen := rfl
@[simp] theorem State.setIbuf_status (i : Nat) (v : Byte) : (s.setIbuf i v).status = s.status := rfl
@[simp] theorem State.setIbuf_ibuf (i : Nat) (v : Byte) : (s.setIbuf i v).ibuf = s.ibuf.write i v := rfl
@[simp] theorem State.setIbuf_obuf (i : Nat) (v : Byte) : (s.setIbuf i v).obuf = s.obuf := rfl
@[simp] theorem State.setIbuf_host (i : Nat) (v : Byte) : (s.setIbuf i v).host = s.host := rfl
@[simp] theorem State.setIbuf_rdata (i : Nat) (v : Byte) : (s.setIbuf i v).rdata = s.rdata := rfl
@[simp] theorem State.setIbuf_draws (i : Nat) (v : Byte) : (s.setIbuf i v).draws = s.draws := rfl

/-! ## the value of the host's read (R17) -/

@[simp] theorem State.setRdata_cfg (n : Nat) : (s.setRdata n).cfg = s.cfg := rfl
@[simp] theorem State.setRdata_cmd (n : Nat) : (s.setRdata n).cmd = s.cmd := rfl
@[simp] theorem State.setRdata_ilen (n : Nat) : (s.setRdata n).ilen = s.ilen := rfl
@[simp] theorem State.setRdata_olen (n : Nat) : (s.setRdata n).olen = s.olen := rfl
@[simp] theorem State.setRdata_status (n : Nat) : (s.setRdata n).status = s.status := rfl
@[simp] theorem State.setRdata_ibuf (n : Nat) : (s.setRdata n).ibuf = s.ibuf := rfl
@[simp] theorem State.setRdata_obuf (n : Nat) : (s.setRdata n).obuf = s.obuf := rfl
@[simp] theorem State.setRdata_host (n : Nat) : (s.setRdata n).host = s.host := rfl
@[simp] theorem State.setRdata_rdata (n : Nat) : (s.setRdata n).rdata = some n := rfl
@[simp] theorem State.setRdata_draws (n : Nat) : (s.setRdata n).draws = s.draws := rfl

/-! ## the host's moves (R52) -/

@[simp] theorem State.setHost_cfg (moves : List HostMove) : (s.setHost moves).cfg = s.cfg := rfl
@[simp] theorem State.setHost_cmd (moves : List HostMove) : (s.setHost moves).cmd = s.cmd := rfl
@[simp] theorem State.setHost_ilen (moves : List HostMove) : (s.setHost moves).ilen = s.ilen := rfl
@[simp] theorem State.setHost_olen (moves : List HostMove) : (s.setHost moves).olen = s.olen := rfl
@[simp] theorem State.setHost_status (moves : List HostMove) : (s.setHost moves).status = s.status := rfl
@[simp] theorem State.setHost_ibuf (moves : List HostMove) : (s.setHost moves).ibuf = s.ibuf := rfl
@[simp] theorem State.setHost_obuf (moves : List HostMove) : (s.setHost moves).obuf = s.obuf := rfl
@[simp] theorem State.setHost_host (moves : List HostMove) : (s.setHost moves).host = moves := rfl
@[simp] theorem State.setHost_rdata (moves : List HostMove) : (s.setHost moves).rdata = s.rdata := rfl
@[simp] theorem State.setHost_draws (moves : List HostMove) : (s.setHost moves).draws = s.draws := rfl

/-! ## reset (R170) -/

@[simp] theorem State.applyReset_cfg : (s.applyReset).cfg = s.cfg := rfl
@[simp] theorem State.applyReset_cmd : (s.applyReset).cmd = 0x00#8 := rfl
@[simp] theorem State.applyReset_ilen : (s.applyReset).ilen = 0 := rfl
@[simp] theorem State.applyReset_olen : (s.applyReset).olen = 0 := rfl
@[simp] theorem State.applyReset_status : (s.applyReset).status = 0x00#8 := rfl
@[simp] theorem State.applyReset_ibuf : (s.applyReset).ibuf = [] := rfl
@[simp] theorem State.applyReset_obuf : (s.applyReset).obuf = [] := rfl
@[simp] theorem State.applyReset_host : (s.applyReset).host = s.host := rfl
@[simp] theorem State.applyReset_rdata : (s.applyReset).rdata = s.rdata := rfl
@[simp] theorem State.applyReset_draws : (s.applyReset).draws = s.draws := rfl

/-! ## reading the source operand (R80) -/

@[simp] theorem State.tookInput_cfg : (s.tookInput).cfg = s.cfg := rfl
@[simp] theorem State.tookInput_cmd : (s.tookInput).cmd = s.cmd := rfl
@[simp] theorem State.tookInput_ilen : (s.tookInput).ilen = s.ilen := rfl
@[simp] theorem State.tookInput_olen : (s.tookInput).olen = s.olen := rfl
@[simp] theorem State.tookInput_status : (s.tookInput).status = s.status := rfl
@[simp] theorem State.tookInput_ibuf : (s.tookInput).ibuf = s.ibuf := rfl
@[simp] theorem State.tookInput_obuf : (s.tookInput).obuf = s.obuf := rfl
@[simp] theorem State.tookInput_host : (s.tookInput).host = s.host := rfl
@[simp] theorem State.tookInput_rdata : (s.tookInput).rdata = s.rdata := rfl
@[simp] theorem State.tookInput_draws : (s.tookInput).draws = s.draws + s.ilen := rfl

end Sys2Proof.Machine
end

