-- ==== Sys2Proof/Laws/Memory.lean ====
section
/-! SUPPORT. The laws of a buffer: what a read after a write gives, and that every operation keeps the canonical form
and stays where there is storage. -/

namespace Sys2Proof.Machine

@[simp] theorem Memory.read_nil (a : Nat) : Memory.read [] a = none := rfl

theorem Memory.read_cons (c : Host.Cell) (m : Memory) (a : Nat) :
    Memory.read (c :: m) a = if c.1 = a then some c.2 else Memory.read m a := rfl

/-- An index that is not listed has no specified value. -/
theorem Memory.read_eq_none (m : Memory) (a : Nat) (h : ∀ c ∈ m, c.1 ≠ a) : m.read a = none := by
  induction m with
  | nil => rfl
  | cons c m ih =>
    rw [Memory.read_cons, if_neg (h c (by simp))]
    exact ih fun d hd => h d (by simp [hd])

/-- The indices of a buffer after a write: the old ones and the written one. -/
theorem Memory.mem_write {m : Memory} {a : Nat} {v : Byte} {c : Host.Cell} (h : c ∈ m.write a v) :
    c = (a, v) ∨ c ∈ m := by
  induction m with
  | nil => simpa [Memory.write] using h
  | cons d m ih =>
    simp only [Memory.write] at h
    split at h
    · simp only [List.mem_cons] at h ⊢; tauto
    · split at h
      · simp only [List.mem_cons] at h ⊢; tauto
      · simp only [List.mem_cons] at h ⊢
        rcases h with h | h
        · tauto
        · rcases ih h with h | h <;> tauto

/-- A write keeps the canonical form. -/
theorem Memory.write_wf {m : Memory} (h : m.wf) (a : Nat) (v : Byte) : (m.write a v).wf := by
  induction m with
  | nil => simp [Memory.write]
  | cons d m ih =>
    obtain ⟨hd, hm⟩ := List.pairwise_cons.mp h
    simp only [Memory.write]
    split
    case isTrue hlt =>
      refine List.pairwise_cons.mpr ⟨fun c hc => ?_, h⟩
      rcases List.mem_cons.mp hc with rfl | hc
      · exact hlt
      · exact Nat.lt_trans hlt (hd c hc)
    case isFalse hge =>
      split
      case isTrue heq =>
        subst heq
        exact List.pairwise_cons.mpr ⟨hd, hm⟩
      case isFalse hne =>
        refine List.pairwise_cons.mpr ⟨fun c hc => ?_, ih hm⟩
        rcases Memory.mem_write hc with rfl | hc
        · show d.1 < a; omega
        · exact hd c hc

/-- A read after a write to the same index gives the byte written. -/
theorem Memory.read_write_same (m : Memory) (a : Nat) (v : Byte) : (m.write a v).read a = some v := by
  induction m with
  | nil => simp [Memory.write, Memory.read_cons]
  | cons d m ih =>
    simp only [Memory.write]
    split
    · simp [Memory.read_cons]
    · split
      · simp [Memory.read_cons]
      · rename_i h
        rw [Memory.read_cons, if_neg (fun e => h e.symm), ih]

/-- A write leaves every other index alone. -/
theorem Memory.read_write_other (m : Memory) {a b : Nat} (v : Byte) (h : b ≠ a) :
    (m.write a v).read b = m.read b := by
  induction m with
  | nil => simp [Memory.write, Memory.read_cons, h.symm]
  | cons d m ih =>
    simp only [Memory.write]
    split
    · rw [Memory.read_cons, if_neg h.symm]
    · split
      · rename_i hd
        rw [Memory.read_cons, if_neg h.symm, Memory.read_cons, if_neg (hd ▸ h.symm)]
      · rw [Memory.read_cons, ih, Memory.read_cons]

/-- A read of a buffer that holds a byte sequence from index `base` on. -/
theorem Memory.read_fromIndex (s : List Byte) (base j : Nat) :
    (Memory.fromIndex base s).read j = if base ≤ j then s[j - base]? else none := by
  induction s generalizing base with
  | nil => simp [Memory.fromIndex]
  | cons v s ih =>
    rw [Memory.fromIndex, Memory.read_cons, ih]
    by_cases h : base = j
    · simp [h]
    · by_cases hlt : base ≤ j
      · have e : j - base = (j - (base + 1)) + 1 := by omega
        rw [if_neg h, if_pos (by omega), if_pos hlt, e, List.getElem?_cons_succ]
      · rw [if_neg h, if_neg (by omega), if_neg hlt]

/-- A read of a result buffer: byte `j` of the result, no specified value past its end. -/
@[simp] theorem Memory.read_ofBytes (s : List Byte) (j : Nat) : (Memory.ofBytes s).read j = s[j]? := by
  simp [Memory.ofBytes, Memory.read_fromIndex]

/-- The indices a byte sequence is stored at. -/
theorem Memory.fromIndex_keys (s : List Byte) (base : Nat) :
    (Memory.fromIndex base s).map (·.1) = List.range' base s.length := by
  induction s generalizing base with
  | nil => rfl
  | cons v s ih => simp [Memory.fromIndex, ih, List.range'_succ]

/-- A result buffer lists exactly the indices below its length. -/
theorem Memory.ofBytes_keys (s : List Byte) : (Memory.ofBytes s).map (·.1) = List.range s.length := by
  rw [Memory.ofBytes, Memory.fromIndex_keys, List.range_eq_range']

/-- A result buffer is in canonical form. -/
theorem Memory.ofBytes_wf (s : List Byte) : (Memory.ofBytes s).wf := by
  have h : ((Memory.ofBytes s).map (·.1)).Pairwise (· < ·) := by
    rw [Memory.ofBytes_keys]; exact List.pairwise_lt_range
  exact List.pairwise_map.mp h

/-- A result that fits the capacity has storage behind every byte. -/
theorem Memory.ofBytes_within {cap : Option Nat} {s : List Byte} (h : admits cap s.length = true) :
    (Memory.ofBytes s).within cap := by
  intro c hc
  have hk : c.1 ∈ List.range s.length := Memory.ofBytes_keys s ▸ List.mem_map_of_mem hc
  have hlt := List.mem_range.mp hk
  unfold hasStorage
  cases cap with
  | none => rfl
  | some n => simp only [admits, decide_eq_true_eq] at h ⊢; omega

/-- A write where there is storage keeps every byte where there is storage. -/
theorem Memory.write_within {cap : Option Nat} {m : Memory} (h : m.within cap) {a : Nat} (v : Byte)
    (ha : hasStorage cap a = true) : (m.write a v).within cap := by
  intro c hc
  rcases Memory.mem_write hc with rfl | hc
  · exact ha
  · exact h c hc

/-- The empty buffer: in canonical form, nothing without storage, nothing specified. -/
theorem Memory.empty_ok (cap : Option Nat) : Memory.wf [] ∧ Memory.within cap [] := ⟨.nil, by simp⟩

end Sys2Proof.Machine
end

