-- ==== Sys2Proof/Laws/Operands.lean ====
section
/-! SUPPORT. What the source operand is (R80, R174), and the table lookups (R22). -/

namespace Sys2Proof.Machine

@[simp] theorem State.input_length (s : State) : s.input.length = s.ilen := by simp [State.input]

/-- Element `i` of the input is the byte a read of `IBUF[i]` gives, a free one when it has no specified value. -/
theorem State.input_getElem? (s : State) (i : Nat) :
    s.input[i]? = if i < s.ilen then some (s.ibuf.readOrFree (s.draws + i) i) else none := by
  by_cases h : i < s.ilen <;> simp [State.input, h]

/-- The input depends on `ILEN`, `IBUF` and the count of draws only. -/
theorem State.input_congr {s t : State} (hi : s.ilen = t.ilen) (hb : s.ibuf = t.ibuf) (hd : s.draws = t.draws) :
    s.input = t.input := by simp [State.input, hi, hb, hd]

/-- A found index is an index of the byte, and the first one. -/
theorem inverse_some {table : List Byte} {c : Byte} {d : Nat} (h : inverse table c = some d) :
    table[d]? = some c := by
  induction table generalizing d with
  | nil => simp [inverse] at h
  | cons a table ih =>
    rw [inverse] at h
    split at h
    · rename_i ha
      cases h
      simp [ha]
    · obtain ⟨e, he, rfl⟩ := Option.map_eq_some_iff.mp h
      simpa using ih he

/-- A lookup of a sequence finds one digit per symbol. -/
theorem lookupAll_length {table cs : List Byte} {ds : List Nat} (h : lookupAll table cs = some ds) :
    ds.length = cs.length := by
  induction cs generalizing ds with
  | nil => simp_all [lookupAll]
  | cons c cs ih =>
    rw [lookupAll] at h
    split at h
    · cases h; simp [ih ‹_›]
    · cases h

/-- A lookup of a sequence gives the index of each symbol. -/
theorem lookupAll_getElem? {table cs : List Byte} {ds : List Nat} (h : lookupAll table cs = some ds) (i : Nat) :
    ds[i]? = cs[i]?.bind (inverse table) := by
  induction cs generalizing ds i with
  | nil => simp_all [lookupAll]
  | cons c cs ih =>
    rw [lookupAll] at h
    split at h
    · rename_i hc hcs
      cases h
      cases i with
      | zero => simp [hc]
      | succ i => simpa using ih hcs i
    · cases h

/-- A lookup of a sequence fails exactly when some symbol is not found. -/
theorem lookupAll_eq_none {table cs : List Byte} : lookupAll table cs = none ↔ ∃ c ∈ cs, inverse table c = none := by
  induction cs with
  | nil => simp [lookupAll]
  | cons c cs ih =>
    rw [lookupAll]
    cases hc : inverse table c <;> cases hcs : lookupAll table cs <;> simp_all

end Sys2Proof.Machine
end

