-- ==== Sys2Proof/Laws/Tables.lean ====
section
/-! SUPPORT. Tables (R21, R22, R30): symbols and digits of an alphabet with no repeated symbol. -/

namespace Sys2Proof.Machine

/-- A byte is not found exactly when it is no symbol of the table (R22). -/
theorem inverse_none {t : List Byte} {c : Byte} : inverse t c = none ↔ c ∉ t := by
  induction t with
  | nil => simp [inverse]
  | cons a t ih =>
    rw [inverse]
    by_cases h : a = c
    · simp [h]
    · have : c ≠ a := fun e => h e.symm
      simp [h, ih, this]

/-- A sequence has no digits exactly when it holds a byte that is no symbol (R123). -/
theorem lookupAll_none {t cs : List Byte} : lookupAll t cs = none ↔ ∃ c ∈ cs, c ∉ t := by
  rw [lookupAll_eq_none]; simp only [inverse_none]

/-- What R30 (a), (b) say of one table. -/
theorem alphabetOk_parts {r : Nat} {tb : List Byte} (h : alphabetOk r tb = true) : tb.length = r ∧ tb.Nodup := by
  unfold alphabetOk at h; simp only [Bool.and_eq_true, decide_eq_true_eq] at h; exact h.1

/-- What R30 says of the six tables: sizes, distinct entries, the pad symbol apart. -/
theorem alphabetsOk_parts {a : Alphabets} (h : alphabetsOk a = true) :
   (a.alpha16.length = 16 ∧ a.alpha16.Nodup) ∧ (a.alpha32.length = 32 ∧ a.alpha32.Nodup) ∧ (a.alpha58.length = 58 ∧ a.alpha58.Nodup) ∧ (a.alpha62.length = 62 ∧ a.alpha62.Nodup) ∧ (a.alpha64.length = 64 ∧ a.alpha64.Nodup) ∧ (a.alpha85.length = 85 ∧ a.alpha85.Nodup) ∧ PAD ∉ a.alpha32 ∧ PAD ∉ a.alpha64 := by
  unfold alphabetsOk padApart at h
  simp only [Bool.and_eq_true, Bool.not_eq_true', List.contains_eq_mem, decide_eq_false_iff_not] at h
  obtain ⟨⟨⟨⟨⟨⟨⟨a1, a2⟩, a3⟩, a4⟩, a5⟩, a6⟩, p1, p2⟩, _⟩ := h
  exact ⟨alphabetOk_parts a1, alphabetOk_parts a2, alphabetOk_parts a3, alphabetOk_parts a4, alphabetOk_parts a5, alphabetOk_parts a6, p1, p2⟩

/-- A digit below the size has its entry as symbol (R21). -/
theorem getElem?_symbol {tb : List Byte} {d : Nat} (h : d < tb.length) : tb[d]? = some (symbol tb d) := by
  simp [symbol, List.getElem?_eq_getElem h]

/-- The digit of the symbol of a digit (R22). -/
theorem inverse_symbol {tb : List Byte} (hn : tb.Nodup) {d : Nat} (h : d < tb.length) : inverse tb (symbol tb d) = some d :=
  by
  have key : ∀ (t : List Byte) (e : Nat) (c : Byte), t.Nodup → t[e]? = some c → inverse t c = some e := by
    intro t
    induction t with
    | nil => simp
    | cons a t ih =>
      intro e c ht he
      rw [List.nodup_cons] at ht
      cases e with
      | zero => simp_all [inverse]
      | succ e =>
        have he : t[e]? = some c := by simpa using he
        have hne : a ≠ c := fun hac => ht.1 (hac ▸ List.mem_of_getElem? he)
        simp [inverse, hne, ih e c ht.2 he]
  exact key tb d _ hn (getElem?_symbol h)

/-- The digits of the symbols of a digit sequence. -/
theorem lookupAll_symbols {tb : List Byte} (hn : tb.Nodup) {D : List Nat} (h : ∀ d ∈ D, d < tb.length) : lookupAll tb (D.map (symbol tb)) = some D := by
  induction D with
  | nil => rfl
  | cons d D ih => simp [lookupAll, inverse_symbol hn (h d (by simp)), ih (fun x hx => h x (by simp [hx]))]

/-- The symbol of the digit of a symbol. -/
theorem symbol_of_inverse {tb : List Byte} {c : Byte} {d : Nat} (h : inverse tb c = some d) : d < tb.length ∧ symbol tb d = c := by
  have := inverse_some h
  have hl : d < tb.length := by
    by_contra hge; rw [List.getElem?_eq_none (by omega)] at this; cases this
  refine ⟨hl, ?_⟩
  rw [getElem?_symbol hl] at this; simpa using this

/-- A sequence that has digits is their symbols. -/
theorem lookupAll_eq {tb T : List Byte} {D : List Nat} (h : lookupAll tb T = some D) : T = D.map (symbol tb) ∧ ∀ d ∈ D, d < tb.length := by
  induction T generalizing D with
  | nil => simp [lookupAll] at h; subst h; simp
  | cons c T ih =>
    rw [lookupAll] at h
    split at h
    · cases h
      obtain ⟨h1, h2⟩ := ih ‹_›
      obtain ⟨h3, h4⟩ := symbol_of_inverse ‹_›
      refine ⟨by simp [h4, ← h1], ?_⟩
      simp; exact ⟨h3, h2⟩
    · cases h

end Sys2Proof.Machine
end

