-- ==== Sys2Proof/Laws/Block85.lean ====
section
/-! SUPPORT. The Block-Radix-85 operations (R141, R142): a block and its five digits, a group and its four bytes. -/

namespace Sys2Proof.Machine

theorem blockDigits_length (v) : (blockDigits v).length = 5 := rfl

/-- Digit `u` of block `q` (R141). -/
theorem payloadDigits_getElem? (P : List Byte) (Q : Nat) (hP : P.length = 4 * Q) (q : Nat) (hq : q < Q) (u : Nat) (hu : u < 5) :
   (payloadDigits P)[5*q+u]? = (blockDigits (blockValue (P.getD (4*q) 0) (P.getD (4*q+1) 0) (P.getD (4*q+2) 0) (P.getD (4*q+3) 0)))[u]? := by
  induction Q generalizing P q with
  | zero => omega
  | succ Q ih =>
    match P, hP with
    | a :: b :: c :: d :: P, hP =>
      rw [payloadDigits]
      cases q with
      | zero => rw [List.getElem?_append_left (by rw [blockDigits_length]; omega)]; simp
      | succ q =>
        rw [List.getElem?_append_right (by rw [blockDigits_length]; omega), blockDigits_length, show 5*(q+1)+u-5 = 5*q+u by omega]
        rw [ih P (by simp at hP; omega) q (by omega)]
        simp only [show 4*(q+1) = 4*q+4 by omega, show 4*q+4+1 = 4*q+1+4 by omega, show 4*q+4+2 = 4*q+2+4 by omega, show 4*q+4+3 = 4*q+3+4 by omega, List.getD_eq_getElem?_getD]
        rfl

theorem payloadDigits_length (Q : Nat) : ∀ P : List Byte, P.length = 4 * Q → (payloadDigits P).length = 5 * Q := by
  induction Q with
  | zero => intro P h; simp at h; subst h; rfl
  | succ Q ih =>
    intro P hP
    match P, hP with
    | a :: b :: c :: d :: P, hP =>
      rw [payloadDigits, List.length_append, blockDigits_length, ih P (by simp at hP; omega)]; omega

/-- The filled payload is a whole number of blocks (R141). -/
theorem zeroFilled_length (P : List Byte) : (zeroFilled P).length = 4 * ((P.length + 3)/4) := by simp [zeroFilled, ceilDiv]; omega

/-- The fill is zero bytes (R141). -/
theorem zeroFilled_getD (P : List Byte) (i : Nat) : (zeroFilled P).getD i 0 = P.getD i 0 := by
  unfold zeroFilled
  rw [List.getD_eq_getElem?_getD, List.getD_eq_getElem?_getD]
  by_cases h : i < P.length
  · rw [List.getElem?_append_left h]
  · rw [List.getElem?_append_right (by omega), List.getElem?_eq_none (l := P) (by omega), List.getElem?_replicate]
    split <;> rfl

/-- A block value fits 32 bits (R7). -/
theorem blockValue_lt (a b c d : Byte) : blockValue a b c d < 2^32 := by
  have := a.isLt; have := b.isLt; have := c.isLt; have := d.isLt
  unfold blockValue; omega

/-- The five digits stand for the block value (R141). -/
theorem blockDigits_value (v : Nat) (h : v < 2^32) : v/85/85/85/85 % 85 * 85^4 + v/85/85/85 % 85 * 85^3 + v/85/85 % 85 * 85^2 + v/85 % 85 * 85 + v % 85 = v := by
  have a1 := Nat.div_add_mod v 85
  have a2 := Nat.div_add_mod (v/85) 85
  have a3 := Nat.div_add_mod (v/85/85) 85
  have a4 := Nat.div_add_mod (v/85/85/85) 85
  have a5 := Nat.div_add_mod (v/85/85/85/85) 85
  have hz : v/85/85/85/85/85 = 0 := by simp only [Nat.div_div_eq_div_mul]; exact Nat.div_eq_of_lt (lt_trans h (by norm_num))
  rw [hz] at a5
  generalize v/85/85/85/85 % 85 = d0 at *
  generalize v/85/85/85 % 85 = d1 at *
  generalize v/85/85 % 85 = d2 at *
  generalize v/85 % 85 = d3 at *
  generalize v % 85 = d4 at *
  rw [← a1, ← a2, ← a3, ← a4, ← a5]; ring

theorem accumulate85_mod (v d : Nat) : accumulate85 (v % 4294967296) d = (v*85+d) % 4294967296 := by
  show (v % 4294967296 * 85 + d) % 4294967296 = _
  rw [Nat.add_mod, Nat.mod_mul_mod, ← Nat.add_mod]

/-- The value of a group modulo 2^32 (R142, R145). -/
theorem accumulate85_group (a b c d e : Nat) : [a,b,c,d,e].foldl accumulate85 0 = (a*85^4+b*85^3+c*85^2+d*85+e) % 2^32 := by
  have e0 : [a,b,c,d,e].foldl accumulate85 0 = accumulate85 (accumulate85 (accumulate85 (accumulate85 (accumulate85 (0 % 4294967296) a) b) c) d) e := rfl
  rw [e0, accumulate85_mod, accumulate85_mod, accumulate85_mod, accumulate85_mod, accumulate85_mod]
  have : a*85^4+b*85^3+c*85^2+d*85+e = ((((0*85+a)*85+b)*85+c)*85+d)*85+e := by ring
  rw [this]; norm_num

/-- Byte `u` of group `q` (R142). -/
theorem textBytes_getElem? (D : List Nat) (Q : Nat) (hD : D.length = 5 * Q) (q : Nat) (hq : q < Q) (u : Nat) (hu : u < 4) :
   (textBytes D)[4*q+u]? = (valueBytes ((D.getD (5 * q) 0 * 85 ^ 4 + D.getD (5 * q + 1) 0 * 85 ^ 3 + D.getD (5 * q + 2) 0 * 85 ^ 2 +
          D.getD (5 * q + 3) 0 * 85 + D.getD (5 * q + 4) 0) % 2 ^ 32))[u]? := by
  induction Q generalizing D q with
  | zero => omega
  | succ Q ih =>
    match D, hD with
    | a :: b :: c :: d :: e :: D, hD =>
      rw [textBytes, accumulate85_group]
      cases q with
      | zero => rw [List.getElem?_append_left (by show _ < 4; omega)]; simp
      | succ q =>
        rw [List.getElem?_append_right (by simp [valueBytes]; omega), show 4*(q+1)+u-(valueBytes ((a*85^4+b*85^3+c*85^2+d*85+e) % 2^32)).length = 4*q+u by simp [valueBytes]; omega]
        rw [ih D (by simp at hD; omega) q (by omega)]
        simp only [show 5*(q+1) = 5*q+5 by omega, show 5*q+5+1 = 5*q+1+5 by omega, show 5*q+5+2 = 5*q+2+5 by omega, show 5*q+5+3 = 5*q+3+5 by omega, show 5*q+5+4 = 5*q+4+5 by omega, List.getD_eq_getElem?_getD]
        rfl

theorem textBytes_length (Q : Nat) : ∀ D : List Nat, D.length = 5 * Q → (textBytes D).length = 4 * Q := by
  induction Q with
  | zero => intro P h; simp at h; subst h; rfl
  | succ Q ih =>
    intro P hP
    match P, hP with
    | a :: b :: c :: d :: e :: P, hP =>
      rw [textBytes, List.length_append, ih P (by simp at hP; omega)]; simp [valueBytes]; omega

end Sys2Proof.Machine
end

