-- ==== Sys2Proof/Laws/Command.lean ====
section
/-! SUPPORT. What the shared command step can do, said once (R80). -/

namespace Sys2Proof.Machine

/-- Every meaning is the shared step over its function and its accumulator need. -/
theorem exec_eq_runCommand (i : Instr) (s : State) :
    exec i s = runCommand (functionOf i s.cfg.alphabets) (accNeedOf i s.cfg.alphabets) s := by
  cases i <;> rfl

/-- What the shared step answers, in every case: always a next state, and which one. -/
theorem runCommand_cases (f : List Byte → Result) (need : List Byte → Nat) (s : State) :
    (admits s.cfg.ibufCap s.ilen = false ∧ runCommand f need s = .next (s.fail .resourceExhaustedError)) ∨
    (admits s.cfg.ibufCap s.ilen = true ∧
      ((∃ k, f s.input = .err k ∧ runCommand f need s = .next (s.tookInput.fail k)) ∨
       (∃ out, f s.input = .ok out ∧
          ((admits s.cfg.accCap (need s.input) = false ∨ admits s.cfg.obufCap out.length = false) ∧
            runCommand f need s = .next (s.tookInput.fail .resourceExhaustedError) ∨
          (admits s.cfg.accCap (need s.input) = true ∧ admits s.cfg.obufCap out.length = true) ∧
            runCommand f need s = .next (s.tookInput.succeed out))))) := by
  unfold runCommand
  cases hi : admits s.cfg.ibufCap s.ilen with
  | false => simp
  | true =>
    refine .inr ⟨rfl, ?_⟩
    cases hf : f s.input with
    | err k => exact .inl ⟨k, rfl, by simp [resultWithin, State.writeBack]⟩
    | ok out =>
      refine .inr ⟨out, rfl, ?_⟩
      cases ha : admits s.cfg.accCap (need s.input) <;> cases ho : admits s.cfg.obufCap out.length <;>
        simp [resultWithin, State.writeBack, ha, ho]

/-- What a command answers, in every case (R80 to R86): the five ends of the command step. -/
theorem exec_cases (i : Instr) (s : State) :
    (admits s.cfg.ibufCap s.ilen = false ∧ exec i s = .next (s.fail .resourceExhaustedError)) ∨
    (admits s.cfg.ibufCap s.ilen = true ∧
      ((∃ k, functionOf i s.cfg.alphabets s.input = .err k ∧ exec i s = .next (s.tookInput.fail k)) ∨
       (∃ out, functionOf i s.cfg.alphabets s.input = .ok out ∧
          ((admits s.cfg.accCap (accNeedOf i s.cfg.alphabets s.input) = false ∨
              admits s.cfg.obufCap out.length = false) ∧
            exec i s = .next (s.tookInput.fail .resourceExhaustedError) ∨
          (admits s.cfg.accCap (accNeedOf i s.cfg.alphabets s.input) = true ∧
              admits s.cfg.obufCap out.length = true) ∧
            exec i s = .next (s.tookInput.succeed out))))) := by
  simpa only [exec_eq_runCommand] using runCommand_cases _ _ s

/-- After a success the result can be read back (R83). -/
theorem State.succeed_expectOk (s : State) (out : List Byte) : (s.succeed out).ExpectOk out :=
  ⟨rfl, rfl, fun j h => by simp [List.getElem?_eq_getElem h]⟩

/-- After a success the bytes above the result have no specified value (R83). -/
theorem State.succeed_unspecified (s : State) (out : List Byte) :
    (s.succeed out).ObufUnspecifiedFrom out.length := fun j h => by simp [h]

/-- After a failure no byte of `OBUF` has a specified value (R84). -/
theorem State.fail_unspecified (s : State) (k : ErrorKind) : (s.fail k).ObufUnspecifiedFrom 0 := fun j _ => by simp

end Sys2Proof.Machine
end

