-- ==== Sys2Proof/Laws/FixedGroup.lean ====
section
/-! SUPPORT. The Fixed-Group operations (R91 to R96): digits as stream positions, pairs of digits, valid texts. -/

namespace Sys2Proof.Machine

/-- `dataCount` is the index of the first pad symbol (R93 (V2)). -/
theorem dataCount_spec (T : List Byte) : (∀ i, i < dataCount T → T[i]? ≠ some PAD) ∧ (dataCount T ≤ T.length) ∧ (dataCount T < T.length → T[dataCount T]? = some PAD) := by
  unfold dataCount
  refine ⟨?_, List.findIdx_le_length, ?_⟩
  · intro i hi h
    have hl : i < T.length := lt_of_lt_of_le hi List.findIdx_le_length
    have := List.not_of_lt_findIdx hi
    rw [List.getElem?_eq_getElem hl] at h
    simp_all
  · intro h
    have := List.findIdx_getElem (w := h)
    rw [List.getElem?_eq_getElem h]; simpa using this

/-- The final group starts at the last multiple of `G` below the length (R93). -/
theorem finalGroupStart_eq (G : Nat) (hG : 0 < G) (T : List Byte) (h : 0 < T.length) : finalGroupStart G T = G * ((T.length - 1) / G) := by
  unfold finalGroupStart ceilDiv
  have : T.length + (G - 1) = (T.length - 1) + G := by omega
  rw [this, Nat.add_div_right _ hG, Nat.mul_succ]; omega

/-- The data symbols of a valid text have digits (R93). -/
theorem validText_lookup {G tb T} (h : validText G tb T = true) : ∃ D, lookupAll tb (T.take (dataCount T)) = some D := by
  cases hl : lookupAll tb (T.take (dataCount T)) with
  | some D => exact ⟨D, rfl⟩
  | none =>
    obtain ⟨c, hc, hn⟩ := lookupAll_none.1 hl
    obtain ⟨h1, h2, h3⟩ := dataCount_spec T
    rw [List.mem_iff_getElem?] at hc
    obtain ⟨j, hj⟩ := hc
    rw [List.getElem?_take] at hj
    split at hj
    · unfold validText at h
      simp only [Bool.and_eq_true, decide_eq_true_eq, List.all_eq_true] at h
      have := h.1.1 c (List.mem_of_getElem? hj)
      have hne : c ≠ PAD := fun e => h1 j ‹_› (e ▸ hj)
      have := @inverse_none tb c
      cases hi : inverse tb c <;> simp_all
    · cases hj

/-- The number with the bits `f 0`, …, most significant first. -/
def bitsValue (f : Nat → Nat) : Nat → Nat
  | 0 => 0
  | b+1 => 2 * bitsValue f b + f b

theorem sum_map_range_succ (g : Nat → Nat) (n : Nat) : ((List.range (n+1)).map g).sum = ((List.range n).map g).sum + g n := by
  simp [List.range_succ]

theorem sum_bits_scale (f : Nat → Nat) (b c : Nat) (h : b ≤ c) : ((List.range b).map fun t => f t * 2^(c - t)).sum * 1 = bitsValue f b * 2^(c+1-b) := by
  induction b with
  | zero => simp [bitsValue]
  | succ b ih =>
    rw [sum_map_range_succ]
    have := ih (by omega)
    rw [Nat.mul_one] at *
    rw [this, bitsValue]
    obtain ⟨k, rfl⟩ := Nat.exists_eq_add_of_le h
    rw [show b + 1 + k + 1 - b = k + 2 by omega, show b+1+k - b = k+1 by omega, show b+1+k+1-(b+1) = k+1 by omega]
    ring

/-- The sum form of R91 and R94. -/
theorem bitsValue_eq_sum (f : Nat → Nat) (b : Nat) : ((List.range b).map fun t => f t * 2^(b - 1 - t)).sum = bitsValue f b := by
  cases b with
  | zero => rfl
  | succ b =>
    rw [sum_map_range_succ]
    have := sum_bits_scale f b b le_rfl
    simp at this
    simp only [Nat.add_sub_cancel, this, bitsValue]
    simp; ring

theorem bitsValue_lt (f : Nat → Nat) (hf : ∀ t, f t ≤ 1) (b : Nat) : bitsValue f b < 2^b := by
  induction b with
  | zero => simp [bitsValue]
  | succ b ih => have := hf b; rw [bitsValue, pow_succ]; omega

/-- Bit `b - 1 - u` of the number is `f u`. -/
theorem bitsValue_testBit (f : Nat → Nat) (hf : ∀ t, f t ≤ 1) (b u : Nat) (h : u < b) : (bitsValue f b).testBit (b - 1 - u) = decide (f u = 1) := by
  induction b with
  | zero => omega
  | succ b ih =>
    have hb := hf b
    rw [bitsValue]
    by_cases hu : u = b
    · subst hu
      simp only [Nat.add_sub_cancel, Nat.sub_self, Nat.testBit_zero]
      have : f u = 0 ∨ f u = 1 := by omega
      rcases this with h | h <;> rw [h] <;> simp
    · rw [show b + 1 - 1 - u = (b - 1 - u) + 1 by omega, Nat.testBit_add_one, show (2 * bitsValue f b + f b) / 2 = bitsValue f b by omega]
      exact ih (by omega)

theorem payloadBit_le (P p) : payloadBit P p ≤ 1 := by
  unfold payloadBit; split
  · rw [Nat.and_one_is_mod]; omega
  · omega

theorem digitAt_eq (b P k) : digitAt b P k = bitsValue (fun t => payloadBit P (k*b+t)) b := bitsValue_eq_sum _ b

/-- A digit fits its `b` bits (R91). -/
theorem digitAt_lt (b P k) : digitAt b P k < 2^b := by rw [digitAt_eq]; exact bitsValue_lt _ (fun _ => payloadBit_le _ _) b

theorem groupDigits_length (b P) : (groupDigits b P).length = ceilDiv (8 * P.length) b := by simp [groupDigits]

theorem lt_ceilDiv {n b k : Nat} (hb : 0 < b) : k < ceilDiv n b ↔ k * b < n := by
  unfold ceilDiv
  rw [Nat.lt_iff_add_one_le, Nat.le_div_iff_mul_le hb, Nat.add_mul]; omega

/-- The two symbols of a byte (R95). -/
theorem getElem?_flatMap_pair (f g : Byte → Byte) (P : List Byte) (k : Nat) (v : Byte) (h : P[k]? = some v) :
   (P.flatMap fun v => [f v, g v])[2*k]? = some (f v) ∧ (P.flatMap fun v => [f v, g v])[2*k+1]? = some (g v) := by
  induction P generalizing k with
  | nil => simp at h
  | cons a P ih =>
    cases k with
    | zero => simp at h; simp [h]
    | succ k =>
      simp at h
      have := ih k h
      rw [show 2 * (k+1) = 2*k+2 by omega, show 2*k+2+1 = (2*k+1)+2 by omega]
      simpa using this

theorem length_flatMap_pair (f g : Byte → Byte) (P : List Byte) : (P.flatMap fun v => [f v, g v]).length = 2 * P.length := by
  induction P with
  | nil => rfl
  | cons a P ih => simp [ih]; omega

/-- A byte of `DEC16` is its two digits (R96). -/
theorem joinPairs_getElem? (D : List Nat) (k : Nat) (h : 2*k+1 < D.length) : (joinPairs D)[k]? = some (BitVec.ofNat 8 ((D[2*k] <<< 4) ||| D[2*k+1])) := by
  induction k generalizing D with
  | zero =>
    match D, h with
    | a :: b :: D, _ => simp [joinPairs]
  | succ k ih =>
    match D, h with
    | a :: b :: D, h =>
      have := ih D (by simp at h; omega)
      simp only [joinPairs, List.getElem?_cons_succ, this]
      rfl

theorem joinPairs_length : ∀ D : List Nat, (joinPairs D).length = D.length / 2
  | [] => rfl
  | [a] => by simp [joinPairs]
  | a :: b :: D => by simp [joinPairs, joinPairs_length D]; omega

theorem nibbles_join (h l : Nat) (hl : l < 16) : (h <<< 4) ||| l = 16 * h + l := by
  rw [Nat.shiftLeft_eq, Nat.mul_comm h, ← Nat.two_pow_add_eq_or_of_lt (i := 4) (by simpa using hl)]

end Sys2Proof.Machine
end

