-- ==== Sys2Proof/Laws/HostPort.lean ====
section
/-! SUPPORT. What a host move can do, said once (R17, R52). -/

namespace Sys2Proof.Machine

theorem step_cons {s : State} {a : HostMove} {rest : List HostMove} (h : s.host = a :: rest) :
    step s = hostMove a (s.setHost rest) := by simp [step, hostStep, h]

/-- A write of `CMD` answers a next state: the command's, or the failure of an illegal word (R80, R81). -/
theorem writeCmd_cases (w : CmdWord) (s : State) :
    (∃ i, decode w = .ok i ∧ writeCmd w s = exec i (s.setCmd w)) ∨
    (∃ e, decode w = .error e ∧ writeCmd w s = .next ((s.setCmd w).fail .unsupportedFormatError)) := by
  unfold writeCmd
  cases decode w with
  | ok i => exact .inl ⟨i, rfl, rfl⟩
  | error e => exact .inr ⟨e, rfl, rfl⟩

/-- A read of a place is the read by its name and index. -/
theorem readPlace_eq (p : Place) (s : State) : readPlace p s = hostMove (readMove p) s := by cases p <;> rfl

/-- A write to a place is the write by its name and index, where the place takes the number; else a refusal. -/
theorem writePlace_cases (p : Place) (v : Nat) (s : State) :
    (placeTakes v p ∧ writePlace p v s = hostMove (writeMove v p) s) ∨
    (¬ placeTakes v p ∧ writePlace p v s = .refused (.busValueTooWide v)) := by
  rcases p with (_ | _ | _ | _) | _ | _ <;> by_cases hv : v < 256 <;>
    simp [placeTakes, writePlace, writeMove, asByte, hostMove, hv]

/-- A bus read is the read by name and index of the place at the address, or is refused where there is none (R50). -/
theorem busRead_cases (addr : Nat) (s : State) :
    (∃ p, busPlace s.cfg.regmap addr = some p ∧ busRead addr s = hostMove (readMove p) s) ∨
    (busPlace s.cfg.regmap addr = none ∧ busRead addr s = .refused (.unmappedBusAddress addr)) := by
  unfold busRead
  cases busPlace s.cfg.regmap addr with
  | none => exact .inr ⟨rfl, rfl⟩
  | some p => exact .inl ⟨p, rfl, readPlace_eq p s⟩

/-- A bus write is the write by name and index to the place at the address, or is refused (R50). -/
theorem busWrite_cases (addr v : Nat) (s : State) :
    (∃ p, busPlace s.cfg.regmap addr = some p ∧
      ((placeTakes v p ∧ busWrite addr v s = hostMove (writeMove v p) s) ∨
       (¬ placeTakes v p ∧ busWrite addr v s = .refused (.busValueTooWide v)))) ∨
    (busPlace s.cfg.regmap addr = none ∧ busWrite addr v s = .refused (.unmappedBusAddress addr)) := by
  unfold busWrite
  cases busPlace s.cfg.regmap addr with
  | none => exact .inr ⟨rfl, rfl⟩
  | some p => exact .inl ⟨p, rfl, writePlace_cases p v s⟩

/-- The fields a copied byte of `MOVE` leaves alone (R68). -/
theorem copyByte_frame (s : State) (j : Nat) :
    (copyByte s j).cfg = s.cfg ∧ (copyByte s j).cmd = s.cmd ∧ (copyByte s j).ilen = s.ilen ∧
    (copyByte s j).olen = s.olen ∧ (copyByte s j).status = s.status ∧ (copyByte s j).obuf = s.obuf ∧
    (copyByte s j).host = s.host := by simp [copyByte]

/-- The fields all the copied bytes of `MOVE` leave alone (R68). -/
theorem copyBytes_frame (s : State) (js : List Nat) :
    (js.foldl copyByte s).cfg = s.cfg ∧ (js.foldl copyByte s).cmd = s.cmd ∧ (js.foldl copyByte s).ilen = s.ilen ∧
    (js.foldl copyByte s).olen = s.olen ∧ (js.foldl copyByte s).status = s.status ∧
    (js.foldl copyByte s).obuf = s.obuf ∧ (js.foldl copyByte s).host = s.host := by
  induction js generalizing s with
  | nil => simp
  | cons j js ih =>
    have h := ih (copyByte s j)
    have hj := copyByte_frame s j
    simp only [List.foldl_cons]
    exact ⟨h.1.trans hj.1, h.2.1.trans hj.2.1, h.2.2.1.trans hj.2.2.1, h.2.2.2.1.trans hj.2.2.2.1,
      h.2.2.2.2.1.trans hj.2.2.2.2.1, h.2.2.2.2.2.1.trans hj.2.2.2.2.2.1, h.2.2.2.2.2.2.trans hj.2.2.2.2.2.2⟩

/-- A run whose first step answers a next state goes on from there. -/
theorem run_succ_next (M : Host.Core) (k : Nat) {s u : M.State} (h : M.step s = .next u) : M.run (k+1) s = M.run k u := by
  rw [Host.Core.run, h]

theorem run_one (M : Host.Core) (s : M.State) : M.run 1 s = M.step s := by
  rw [Host.Core.run]; cases M.step s <;> rfl

/-- A run and one step more. -/
theorem run_add (M : Host.Core) (k : Nat) {s t : M.State} (h : M.run k s = .next t) : M.run (k+1) s = M.step t := by
  induction k generalizing s with
  | zero => cases h; exact run_one M t
  | succ k ih =>
    cases hs : M.step s with
    | next u => rw [run_succ_next M _ hs] at h ⊢; exact ih h
    | fault r => rw [Host.Core.run, hs] at h; cases h
    | refused r => rw [Host.Core.run, hs] at h; cases h

/-- The bytes after the first `n` copies of `MOVE` (R68). -/
theorem copyBytes_read (s : State) (out : List Byte) (hr : ∀ j, j < out.length → s.obuf.read j = out[j]?) (n : Nat) (hn : n ≤ out.length) :
   (∀ j, j < n → ((List.range n).foldl copyByte s).ibuf.read j = out[j]?) ∧ (∀ j, n ≤ j → ((List.range n).foldl copyByte s).ibuf.read j = s.ibuf.read j) := by
  induction n with
  | zero => simp
  | succ n ih =>
    have ih := ih (by omega)
    obtain ⟨f1, f2, f3, f4, f5, f6, f7⟩ := copyBytes_frame s (List.range n)
    rw [List.range_succ, List.foldl_append]
    simp only [List.foldl_cons, List.foldl_nil, copyByte, State.setIbuf_ibuf, State.drew_ibuf, State.setRdata_ibuf]
    constructor
    · intro j hj
      by_cases h : j = n
      · subst h
        rw [Memory.read_write_same, Memory.readOrFree, f6, hr j (by omega), List.getElem?_eq_getElem (by omega)]; rfl
      · rw [Memory.read_write_other _ _ h]; exact ih.1 j (by omega)
    · intro j hj
      rw [Memory.read_write_other _ _ (by omega)]; exact ih.2 j (by omega)

end Sys2Proof.Machine
end

