-- ==== Sys2Proof/Laws/PerInstr.lean ====
section
/-! SUPPORT. The family `EncodedFields`: each command is well-formed, and the fields of its word are its direction and
its radix (R61, R62, R63). -/

namespace Sys2Proof.Laws.EncodedFields

/-- The word of a command: `DIR` says whether it decodes, `FMT` is its radix, and the tag is legal. -/
def Statement (i : Instr) : Prop :=
  i.wellFormed = true ∧ dirField (encode i) = BitVec.ofBool i.decodes ∧ (fmtField (encode i)).toNat = i.radix

theorem enc16 : Statement .enc16 := by unfold Statement; decide
theorem enc32 : Statement .enc32 := by unfold Statement; decide
theorem enc58 : Statement .enc58 := by unfold Statement; decide
theorem enc62 : Statement .enc62 := by unfold Statement; decide
theorem enc64 : Statement .enc64 := by unfold Statement; decide
theorem enc85 : Statement .enc85 := by unfold Statement; decide
theorem dec16 : Statement .dec16 := by unfold Statement; decide
theorem dec32 : Statement .dec32 := by unfold Statement; decide
theorem dec58 : Statement .dec58 := by unfold Statement; decide
theorem dec62 : Statement .dec62 := by unfold Statement; decide
theorem dec64 : Statement .dec64 := by unfold Statement; decide
theorem dec85 : Statement .dec85 := by unfold Statement; decide

end Sys2Proof.Laws.EncodedFields
end

