-- ==== Sys2Proof/Tests/Slice0.lean ====
section
/-! SUPPORT. Tests, each about one step on a small state, with expected results from the spec's vectors
(`95_test_vectors.md`) or its rules; the smoke test of the checks; and for every statement with hypotheses a witness
that meets them. -/

namespace Sys2Proof.Tests

open Sys2Proof Sys2Proof.Machine

/-- The state after the script line `LOAD t` on a reset block. -/
def loaded (t : List Byte) : State := { State.reset with ilen := t.length, ibuf := Memory.ofBytes t }

/-- A state whose next move writes `w` to `CMD`. -/
def toRun (w : CmdWord) (s : State) : State := { s with host := [.writeCmd w] }

/-- A state with the three capacities given. -/
def capped (i o a : Nat) (s : State) : State :=
  { s with cfg := { s.cfg with ibufCap := some i, obufCap := some o, accCap := some a } }

/-- `EXPECT OK`, as a test: nothing above the result has a value. -/
def isOk (r : Host.Outcome State Fault Refusal) (out : List Byte) : Bool :=
  match r with
  | .next t => t.status == 0x00#8 && t.olen == out.length && t.obuf == Memory.ofBytes out
  | .fault _ => false
  | .refused _ => false

/-- `EXPECT ERR`, as a test, with the code written out. -/
def isErr (r : Host.Outcome State Fault Refusal) (code : Nat) : Bool :=
  match r with
  | .next t => t.status == BitVec.ofNat 8 code && t.olen == 0 && t.obuf == []
  | .fault _ => false
  | .refused _ => false

/-- A next state that passes a test. -/
def isNext (r : Host.Outcome State Fault Refusal) (p : State → Bool) : Bool :=
  match r with
  | .next t => p t
  | .fault _ => false
  | .refused _ => false

/-- A stop with the given fault. -/
def isFault (r : Host.Outcome State Fault Refusal) (f : Fault) : Bool :=
  match r with
  | .next _ => false
  | .fault g => g == f
  | .refused _ => false

/-- A stop with the given refusal. -/
def isRefused (r : Host.Outcome State Fault Refusal) (f : Refusal) : Bool :=
  match r with
  | .next _ => false
  | .fault _ => false
  | .refused g => g == f

/-! ## The checks refuse what is ill-formed (R4, R30, R64) -/

theorem test_checks_accept_defaults : defaultConfig.Wf := by decide
theorem test_checks_refuse_short_table : alphabetOk 16 (defaultAlpha16.drop 1) = false := by decide
theorem test_checks_refuse_double_symbol : alphabetOk 16 (0x46#8 :: defaultAlpha16.drop 1) = false := by decide
theorem test_checks_refuse_space : alphabetOk 16 (0x20#8 :: defaultAlpha16.drop 1) = false := by decide
theorem test_checks_refuse_del : alphabetOk 16 (0x7F#8 :: defaultAlpha16.drop 1) = false := by decide
theorem test_checks_refuse_pad_symbol_in_table :
    padApart { defaultAlphabets with alpha32 := PAD :: defaultAlpha32.drop 1 } = false := by decide
theorem test_checks_refuse_missed_pin : pinned (0x32#8 :: defaultAlpha58.drop 1) pins58 = false := by decide
theorem test_checks_refuse_wrong_alphabets :
    alphabetsOk { defaultAlphabets with alpha58 := defaultAlpha58.reverse } = false := by decide
theorem test_checks_refuse_narrow_length :
    lenWOk { defaultConfig with ibufCap := some 256, obufCap := some 8, lenW := some 8 } = false := by decide
theorem test_checks_accept_wide_length :
    lenWOk { defaultConfig with ibufCap := some 255, obufCap := some 8, lenW := some 8 } = true := by decide
theorem test_checks_refuse_width_without_capacity :
    lenWOk { defaultConfig with lenW := some 8 } = false := by decide
theorem test_checks_refuse_tag_17 : legalTag 17 = false := by decide
theorem test_checks_accept_commands : ([Instr.enc16, .dec85].all Instr.wellFormed) = true := by decide

/-! ## Decoding (R63), the words written out bit by bit -/

theorem test_decode_enc16 : decode 0b00010000#8 = .ok .enc16 := by decide
theorem test_decode_enc32 : decode 0b00100000#8 = .ok .enc32 := by decide
theorem test_decode_enc58 : decode 0b00111010#8 = .ok .enc58 := by decide
theorem test_decode_enc62 : decode 0b00111110#8 = .ok .enc62 := by decide
theorem test_decode_enc64 : decode 0b01000000#8 = .ok .enc64 := by decide
theorem test_decode_enc85 : decode 0b01010101#8 = .ok .enc85 := by decide
theorem test_decode_dec16 : decode 0b10010000#8 = .ok .dec16 := by decide
theorem test_decode_dec32 : decode 0b10100000#8 = .ok .dec32 := by decide
theorem test_decode_dec58 : decode 0b10111010#8 = .ok .dec58 := by decide
theorem test_decode_dec62 : decode 0b10111110#8 = .ok .dec62 := by decide
theorem test_decode_dec64 : decode 0b11000000#8 = .ok .dec64 := by decide
theorem test_decode_dec85 : decode 0b11010101#8 = .ok .dec85 := by decide

/-- The illegal words listed in `95_test_vectors.md` §2.7 are refused by name. -/
theorem test_decode_refuses_illegal_words :
    ([0x00, 0x01, 0x0F, 0x11, 0x3B, 0x41, 0x54, 0x56, 0x7F, 0x80, 0x8F, 0x91, 0xD4, 0xD6, 0xFF].all fun n =>
      decide (decode (BitVec.ofNat 8 n) = .error (.unsupportedFormat
        (BitVec.ofNat 1 (n / 128)) (BitVec.ofNat 7 (n % 128))))) = true := by decide

theorem test_decode_table_word : decodeTableWord 8 0xBE = some .dec62 ∧ decodeTableWord 8 0x11 = none := by decide

/-! ## The twelve commands (`95_test_vectors.md` §2.1 to §2.7), each run by one step from a `CMD` write -/

theorem test_enc16_splits_nibbles :
    isOk (step (toRun 0x10#8 (loaded (bytes [0xAB, 0xCD])))) (bytes [0x41, 0x42, 0x43, 0x44]) = true := by decide
theorem test_enc16_of_symbols :
    isOk (step (toRun 0x10#8 (loaded (bytes [0x41, 0x42, 0x43, 0x44])))) (bytes [0x34, 0x31, 0x34, 0x32, 0x34, 0x33, 0x34, 0x34]) = true := by decide
theorem test_dec16_joins_nibbles :
    isOk (step (toRun 0x90#8 (loaded (bytes [0x30, 0x46, 0x46, 0x30])))) (bytes [0x0F, 0xF0]) = true := by decide
theorem test_dec16_tests_length_first : isErr (step (toRun 0x90#8 (loaded (bytes [0x41, 0x42, 0x24])))) 1 = true := by decide
theorem test_enc32_packs_five_bits :
    isOk (step (toRun 0x20#8 (loaded (bytes [0x48, 0x65, 0x6C, 0x6C, 0x6F])))) (bytes [0x4A, 0x42, 0x53, 0x57, 0x59, 0x33, 0x44, 0x50]) = true := by decide
theorem test_enc32_pads_offset_seven :
    isOk (step (toRun 0x20#8 (loaded (bytes [0x66, 0x6F, 0x6F, 0x62])))) (bytes [0x4D, 0x5A, 0x58, 0x57, 0x36, 0x59, 0x51, 0x3D]) = true := by decide
theorem test_dec32_takes_pad_at_offset_seven :
    isOk (step (toRun 0xA0#8 (loaded (bytes [0x4D, 0x5A, 0x58, 0x57, 0x36, 0x59, 0x51, 0x3D])))) (bytes [0x66, 0x6F, 0x6F, 0x62]) = true := by decide
theorem test_dec32_refuses_early_pads : isErr (step (toRun 0xA0#8 (loaded (bytes [0x4D, 0x59, 0x3D, 0x3D, 0x3D, 0x3D, 0x3D, 0x3D, 0x4D, 0x59, 0x3D, 0x3D, 0x3D, 0x3D, 0x3D, 0x3D])))) 2 = true := by decide
theorem test_enc64_packs_six_bits :
    isOk (step (toRun 0x40#8 (loaded (bytes [0x4D, 0x61, 0x6E])))) (bytes [0x54, 0x57, 0x46, 0x75]) = true := by decide
theorem test_enc64_pads_short_group :
    isOk (step (toRun 0x40#8 (loaded (bytes [0x4D])))) (bytes [0x54, 0x51, 0x3D, 0x3D]) = true := by decide
theorem test_dec64_drops_leftover_bits :
    isOk (step (toRun 0xC0#8 (loaded (bytes [0x54, 0x52, 0x3D, 0x3D])))) (bytes [0x4D]) = true := by decide
theorem test_dec64_refuses_data_after_pad : isErr (step (toRun 0xC0#8 (loaded (bytes [0x5A, 0x67, 0x3D, 0x41])))) 2 = true := by decide
theorem test_enc58_keeps_leading_zeros :
    isOk (step (toRun 0x3A#8 (loaded (bytes [0x00, 0x01, 0x00])))) (bytes [0x31, 0x35, 0x52]) = true := by decide
theorem test_enc58_flushes_two_digits :
    isOk (step (toRun 0x3A#8 (loaded (bytes [0xFF, 0xFF])))) (bytes [0x4C, 0x55, 0x76]) = true := by decide
theorem test_dec58_zero_symbol_after_the_prefix :
    isOk (step (toRun 0xBA#8 (loaded (bytes [0x32, 0x31, 0x31])))) (bytes [0x0D, 0x24]) = true := by decide
theorem test_dec58_tests_the_prefix_too : isErr (step (toRun 0xBA#8 (loaded (bytes [0x31, 0x31, 0x3D])))) 2 = true := by decide
theorem test_enc62_drops_leading_zeros :
    isOk (step (toRun 0x3E#8 (loaded (bytes [0x00, 0x00, 0x01])))) (bytes [0x31]) = true := by decide
theorem test_enc62_of_a_word :
    isOk (step (toRun 0x3E#8 (loaded (bytes [0xFF, 0xFF])))) (bytes [0x48, 0x33, 0x31]) = true := by decide
theorem test_dec62_drops_leading_zeros :
    isOk (step (toRun 0xBE#8 (loaded (bytes [0x30, 0x30, 0x31])))) (bytes [0x01]) = true := by decide
theorem test_dec62_two_digits :
    isOk (step (toRun 0xBE#8 (loaded (bytes [0x7A, 0x7A])))) (bytes [0x0F, 0x03]) = true := by decide
theorem test_enc85_of_a_block :
    isOk (step (toRun 0x55#8 (loaded (bytes [0x4D, 0x61, 0x6E, 0x20])))) (bytes [0x39, 0x6A, 0x71, 0x6F, 0x5E]) = true := by decide
theorem test_enc85_fills_the_block :
    isOk (step (toRun 0x55#8 (loaded (bytes [0x01])))) (bytes [0x21, 0x3C, 0x3C, 0x2A, 0x22]) = true := by decide
theorem test_dec85_wraps :
    isOk (step (toRun 0xD5#8 (loaded (bytes [0x73, 0x38, 0x57, 0x2D, 0x22])))) (bytes [0x00, 0x00, 0x00, 0x00]) = true := by decide
theorem test_dec85_tests_length_without_whitespace : isErr (step (toRun 0xD5#8 (loaded (bytes [0x21, 0x21, 0x21, 0x21, 0x20])))) 1 = true := by decide

/-! ## Capacities and the order of the checks (`95_test_vectors.md` §2.7) -/

theorem test_input_over_capacity : isErr (step (toRun 0x10#8 (capped 8 8 2 { State.reset with ilen := 9 }))) 3 = true := by decide
theorem test_tag_before_length : isErr (step (toRun 0x11#8 (capped 8 8 2 { State.reset with ilen := 9 }))) 4 = true := by decide
theorem test_result_fits_exactly :
    isOk (step (toRun 0x10#8 (capped 8 8 2 (loaded (bytes [0x01, 0x02, 0x03, 0x04]))))) (bytes [0x30, 0x31, 0x30, 0x32, 0x30, 0x33, 0x30, 0x34]) = true := by decide
theorem test_result_over_capacity : isErr (step (toRun 0x10#8 (capped 8 8 2 (loaded (bytes [0x01, 0x02, 0x03, 0x04, 0x05]))))) 3 = true := by decide
theorem test_accumulator_over_capacity : isErr (step (toRun 0x3A#8 (capped 8 8 2 (loaded (bytes [0xFF, 0xFF]))))) 3 = true := by decide
theorem test_prefix_needs_no_accumulator :
    isOk (step (toRun 0x3A#8 (capped 8 8 2 (loaded (bytes [0x00, 0x00, 0x00, 0x01, 0x00]))))) (bytes [0x31, 0x31, 0x31, 0x35, 0x52]) = true := by decide
theorem test_function_error_before_capacity : isErr (step (toRun 0x90#8 (capped 8 0 2 (loaded (bytes [0x24, 0x24]))))) 2 = true := by decide

/-! ## The host's moves (R12 to R17, R19, R47, R68, R170) -/

theorem test_reset_values : State.reset.cmd = 0x00#8 ∧ State.reset.status = 0x00#8 ∧ State.reset.Inv :=
  ⟨rfl, rfl, test_checks_accept_defaults, by decide⟩

/-- The first command after reset, with nothing written, succeeds with the empty result (R173). -/
theorem test_first_command : isOk (step (State.reset.withFetchWord 8 0x40)) [] = true := by decide

theorem test_withFetchWord_illegal : isErr (step (State.reset.withFetchWord 8 0x11)) 4 = true := by decide

theorem test_reset_clears :
    isNext (step { loaded (bytes [0x4D]) with host := [.reset], olen := 1, status := 2#8, obuf := [(0, 1#8)] })
      (fun t => t == State.reset) = true := by decide

theorem test_ilen_over_capacity_is_writable :
    isNext (step (capped 8 8 2 { State.reset with host := [.writeIlen 9] })) (fun t => t.ilen == 9) = true := by decide

theorem test_ilen_too_wide_refused :
    isRefused (step { State.reset with
      cfg := { defaultConfig with ibufCap := some 8, obufCap := some 8, lenW := some 4 },
      host := [.writeIlen 16] }) (.lengthTooWide 16) = true := by decide

theorem test_ibuf_write_keeps_order :
    isNext (step { loaded (bytes [0x4D]) with host := [.writeIbuf 5 7#8] })
      (fun t => t.ibuf == [(0, 0x4D#8), (5, 7#8)]) = true := by decide

theorem test_ibuf_write_at_capacity_faults :
    isFault (step (capped 8 8 2 { State.reset with host := [.writeIbuf 8 1#8] }))
      (.bufferIndexBeyondCapacity 8) = true := by decide

theorem test_ibuf_write_below_capacity :
    isNext (step (capped 8 8 2 { State.reset with host := [.writeIbuf 7 1#8] }))
      (fun t => t.ibuf == [(7, 1#8)]) = true := by decide

theorem test_status_write_ignored :
    isNext (step { State.reset with host := [.writeStatus 3#8] }) (fun t => t == State.reset) = true := by decide

theorem test_obuf_write_ignored :
    isNext (step { State.reset with host := [.writeObuf 0 3#8] }) (fun t => t == State.reset) = true := by decide

theorem test_read_obuf :
    isNext (step { State.reset with host := [.readObuf 1], olen := 2, obuf := Memory.ofBytes (bytes [5, 6]) })
      (fun t => t.rdata == some 6) = true := by decide

theorem test_idle : isNext (step State.reset) (fun t => t == State.reset) = true := by decide

/-- `MOVE` of program P1 (`95_test_vectors.md` §3). -/
theorem test_move :
    isNext (step { loaded (bytes [0x4D, 0x61, 0x6E]) with
        host := [.move], olen := 4, obuf := Memory.ofBytes (bytes [0x54, 0x57, 0x46, 0x75]) })
      (fun t => t.ilen == 4 && t.ibuf == Memory.ofBytes (bytes [0x54, 0x57, 0x46, 0x75])) = true := by decide

theorem test_move_over_capacity :
    isRefused (step (capped 2 8 2 { State.reset with
      host := [.move], olen := 3, obuf := Memory.ofBytes (bytes [1, 2, 3]) })) (.moveDoesNotFit 3) = true := by decide

/-- A state whose `REGMAP` puts `CMD` at 0x100, `ILEN` at 0x101, and eight bytes of each buffer from 0x200 and 0x300
on. -/
def onBus (s : State) : State :=
  { s with cfg := { s.cfg with
      regmap := [.reg 0x100 .cmd, .reg 0x101 .ilen, .ibuf 0x200 0 (some 8), .obuf 0x300 0 (some 8)] } }

theorem test_bus_write_runs_command :
    isOk (step { onBus (loaded (bytes [0xAB])) with host := [.busWrite 0x100 0x10] }) (bytes [0x41, 0x42]) = true := by
  decide

theorem test_bus_write_ibuf :
    isNext (step { onBus State.reset with host := [.busWrite 0x207 9] }) (fun t => t.ibuf == [(7, 9#8)]) = true := by
  decide

theorem test_bus_write_too_wide :
    isRefused (step { onBus State.reset with host := [.busWrite 0x100 256] }) (.busValueTooWide 256) = true := by decide

theorem test_bus_read_obuf :
    isNext (step { onBus State.reset with host := [.busRead 0x301], obuf := Memory.ofBytes (bytes [5, 6]) })
      (fun t => t.rdata == some 6) = true := by decide

theorem test_bus_unmapped :
    isRefused (step { onBus State.reset with host := [.busRead 0x208] }) (.unmappedBusAddress 0x208) = true := by decide

/-- The spec fixes no address (R50): after reset no address is mapped. -/
theorem test_bus_reset :
    isRefused (step { State.reset with host := [.busWrite 0 0] }) (.unmappedBusAddress 0) = true := by decide

/-- The moves of `LOAD "Ma"` (R68). -/
theorem test_load_moves :
    (ScriptLine.load (bytes [0x4D, 0x61])).moves = [.writeIbuf 0 0x4D#8, .writeIbuf 1 0x61#8, .writeIlen 2] := by
  decide

/-! ## The datapaths on the spec's traces (`95_test_vectors.md` §2.0) -/

/-- Trace T6. -/
theorem test_trace_t6 : (bigLoop 256 58 true [1, 0]).acc = [24, 4] := by decide
/-- Trace T7. -/
theorem test_trace_t7 : (bigLoop 256 58 true [255, 255]).acc = [53, 27, 19] := by decide
/-- Trace T9. -/
theorem test_trace_t9 : (bigLoop 58 256 true [19, 27, 53]).acc = [255, 255] := by decide
/-- Trace T3. -/
theorem test_trace_t3 : fixedEncode 6 (some 4) defaultAlpha64 (bytes [0x4D]) = bytes [0x54, 0x51, 0x3D, 0x3D] := by
  decide
/-- Trace T5. -/
theorem test_trace_t5 : fixedDecode 6 4 defaultAlpha64 (bytes [0x54, 0x52, 0x3D, 0x3D]) = .ok [0x4D#8] := by decide
/-- Trace T11. -/
theorem test_trace_t11 :
    block85Encode defaultAlpha85 3 (bytes [0x4D, 0x61, 0x6E]) = bytes [0x39, 0x6A, 0x71, 0x6F, 0x3E] := by decide

/-! ## Witnesses: for each statement with hypotheses, a state and operands that meet them all -/

theorem witness_IllegalWordFailsUnsupported :
    (toRun 0x00#8 State.reset).host = .writeCmd 0x00#8 :: [] ∧ (fmtField 0x00#8).toNat ∉ RADIXES ∧
    (toRun 0xFF#8 State.reset).host = .writeCmd 0xFF#8 :: [] ∧ (fmtField 0xFF#8).toNat ∉ RADIXES := by decide

theorem witness_StepRunsDecodedCommand :
    (toRun 0xD5#8 State.reset).host = .writeCmd 0xD5#8 :: [] ∧ decode 0xD5#8 = .ok .dec85 := by decide

theorem witness_InputOverCapacityFails :
    ((capped 8 8 2 { State.reset with ilen := 9 }).cfg.ibufCap = some 8 ∧ 8 < 9) ∧
    State.reset.cfg.ibufCap = none := by decide

theorem witness_SuccessWritesResult :
    functionOf .enc16 defaultAlphabets (loaded (bytes [0xAB])).input = .ok (bytes [0x41, 0x42]) ∧
    (capped 1 2 0 (loaded (bytes [0xAB]))).Fits (accNeedOf .enc16 defaultAlphabets (loaded (bytes [0xAB])).input) 2 := by
  decide

theorem witness_FailureWritesError :
    (admits (loaded (bytes [0x41])).cfg.ibufCap 1 = true ∧
      functionOf .dec16 defaultAlphabets (loaded (bytes [0x41])).input = .err .lengthError) ∧
    ∃ t, exec .dec16 (loaded (bytes [0x41])) = .next t ∧ t.status ≠ 0x00#8 :=
  ⟨by decide, _, rfl, by decide⟩

/-- A result one byte and more over `OBUF_CAP` (R85), and three digits in an accumulator of two (R86, trace T7). -/
theorem witness_CapacityExceededFails :
    (admits (some 8) 5 = true ∧ CapacityCause .enc16 (capped 8 9 2 State.reset).cfg (bytes [1, 2, 3, 4, 5])) ∧
    CapacityCause .enc58 (capped 8 8 2 State.reset).cfg (bytes [0xFF, 0xFF]) :=
  ⟨⟨by decide, _, rfl, .inl (by decide)⟩, _, rfl, .inr (by decide)⟩

theorem witness_LengthErrorCauses :
    LengthCause .dec16 (bytes [0x41]) ∧ LengthCause .dec85 (bytes [0x21, 0x21, 0x21, 0x21, 0x20]) ∧
    ¬ LengthCause .dec85 (bytes [0x21, 0x21, 0x21, 0x21, 0x21, 0x0A]) := by
  refine ⟨?_, ?_, ?_⟩ <;> (unfold LengthCause; decide)

theorem witness_InvalidCharacterCauses :
    CharCause .dec16 defaultAlphabets (bytes [0x61, 0x62]) ∧
    CharCause .dec64 defaultAlphabets (bytes [0x5A, 0x67, 0x3D, 0x41]) ∧
    CharCause .dec32 defaultAlphabets (bytes [0x30]) ∧
    CharCause .dec58 defaultAlphabets (bytes [0x30]) ∧ CharCause .dec62 defaultAlphabets (bytes [0x2B]) ∧
    CharCause .dec85 defaultAlphabets (bytes [0x7A, 0x7A, 0x7A, 0x7A, 0x7A]) :=
  ⟨⟨rfl, 0x61#8, by decide, by decide⟩, .inr (.inr ⟨2, 3, 0x41#8, by decide, rfl, rfl, by decide⟩),
    .inl ⟨0x30#8, by decide, by decide⟩, ⟨0x30#8, by decide, by decide⟩, ⟨0x2B#8, by decide, by decide⟩,
    ⟨rfl, 0x7A#8, by decide, by decide⟩⟩

/-- A pad symbol in a group that is not the final one (R153 (c)). -/
theorem witness_MisplacedPad : MisplacedPad 4 (bytes [0x5A, 0x67, 0x3D, 0x3D, 0x5A]) :=
  .inl ⟨2, rfl, by decide⟩

theorem witness_ResourceExhaustedCauses :
    (State.reset.cfg.ibufCap = none ∧ State.reset.cfg.obufCap = none ∧ State.reset.cfg.accCap = none) ∧
    (∃ t, exec .enc62 State.reset = .next t) ∧ admits (some 8) 9 = false := ⟨by decide, ⟨_, rfl⟩, rfl⟩

theorem witness_UnsupportedFormatCause : (toRun 0x11#8 State.reset).host = .writeCmd 0x11#8 :: [] := rfl

/-- Each of the five ends of the order, on the word of `DEC16`. -/
theorem witness_FirstCauseIsReported :
    (toRun 0x90#8 State.reset).host = .writeCmd 0x90#8 :: [] ∧ decode 0x90#8 = .ok .dec16 ∧
    (fmtField 0x91#8).toNat ∉ RADIXES ∧ admits (some 8) 9 = false ∧ admits (some 8) 8 = true ∧
    LengthCause .dec16 (bytes [0x24]) ∧
    (¬ LengthCause .dec16 (bytes [0x24, 0x24]) ∧ CharCause .dec16 defaultAlphabets (bytes [0x24, 0x24])) ∧
    (¬ CharCause .dec16 defaultAlphabets (bytes [0x30, 0x30]) ∧
      CapacityCause .dec16 (capped 8 0 0 State.reset).cfg (bytes [0x30, 0x30])) ∧
    ¬ CapacityCause .dec16 (capped 8 1 0 State.reset).cfg (bytes [0x30, 0x30]) := by
  refine ⟨rfl, rfl, by decide, rfl, rfl, rfl, ⟨by unfold LengthCause; decide, rfl, 0x24#8, by decide, by decide⟩,
    ⟨?_, _, rfl, .inl rfl⟩, ?_⟩
  · rintro ⟨_, c, hc, hn⟩
    have : c = 0x30#8 := by simpa [bytes] using hc
    exact hn (this ▸ by decide)
  · rintro ⟨out, h, hcap⟩
    have : out = [0#8] := by
      have h' : functionOf .dec16 (capped 8 1 0 State.reset).cfg.alphabets (bytes [0x30, 0x30]) = .ok [0#8] := by decide
      rw [h'] at h; injection h with h; exact h.symm
    subst this
    revert hcap; decide

/-- Two states that differ above `ILEN` and in the earlier result only. -/
theorem witness_CommandIsPure :
    ∃ s s' : State, s ≠ s' ∧ s.cfg = s'.cfg ∧ s.ilen = s'.ilen ∧
      ∀ k, k < s.ilen → ∃ v, s.ibuf.read k = some v ∧ s'.ibuf.read k = some v := by
  refine ⟨loaded (bytes [0x41]), { loaded (bytes [0x41]) with
    ibuf := Memory.ofBytes (bytes [0x41, 0x42]), olen := 1, obuf := [(0, 7#8)] }, by decide, rfl, rfl, ?_⟩
  intro k hk
  have : k = 0 := by simpa [loaded, bytes] using hk
  subst this
  exact ⟨0x41#8, rfl, rfl⟩

theorem witness_InputIsBufferPrefix :
    (0 < (loaded (bytes [0x41])).ilen ∧ (loaded (bytes [0x41])).ibuf.read 0 = some 0x41#8) ∧
    (0 < { State.reset with ilen := 1 }.ilen ∧ { State.reset with ilen := 1 }.ibuf.read 0 = none) := by decide

theorem witness_Enc16WritesNibbleSymbols :
    (loaded (bytes [0xAB])).cfg.Wf ∧ (capped 1 2 0 (loaded (bytes [0xAB]))).Fits 0 (2 * 1) ∧
    (loaded (bytes [0xAB])).input[0]? = some 0xAB#8 :=
  ⟨test_checks_accept_defaults, by decide⟩

theorem witness_Dec16JoinsNibbles :
    (admits none 3 = true ∧ (loaded (bytes [0x41, 0x42, 0x43])).ilen % 2 = 1) ∧
    ((loaded (bytes [0x30, 0x47])).ilen % 2 = 0 ∧ ∃ c ∈ (loaded (bytes [0x30, 0x47])).input, c ∉ defaultAlpha16) ∧
    ((loaded (bytes [0x30, 0x46])).cfg.Wf ∧ (capped 2 1 0 (loaded (bytes [0x30, 0x46]))).Fits 0 (2 / 2) ∧
      ∀ c ∈ (loaded (bytes [0x30, 0x46])).input, c ∈ defaultAlpha16) :=
  ⟨by decide, by decide, test_checks_accept_defaults, by decide⟩

theorem witness_Enc32WritesFiveBitSymbols :
    (loaded (bytes [1, 2, 3, 4, 5, 6])).cfg.Wf ∧
    (capped 6 16 0 (loaded (bytes [1, 2, 3, 4, 5, 6]))).Fits 0 (8 * ((6 + 4) / 5)) :=
  ⟨test_checks_accept_defaults, by decide⟩

/-- A text with pad symbols, one whose final group is all pads, and one with a foreign character. -/
theorem witness_Dec32UnpacksDigits :
    (PaddedText 8 defaultAlpha32 (loaded (bytes [0x4D, 0x59, 0x3D, 0x3D, 0x3D, 0x3D, 0x3D, 0x3D])).input [12, 24] ∧
      (capped 8 1 0 (loaded (bytes [0x4D, 0x59, 0x3D, 0x3D, 0x3D, 0x3D, 0x3D, 0x3D]))).Fits 0 (5 * 2 / 8)) ∧
    PaddedText 8 defaultAlpha32 (bytes [0x3D]) [] ∧ PaddedText 8 defaultAlpha32 (bytes [0x37]) [31] ∧
    ¬ ∃ D, PaddedText 8 defaultAlpha32 (loaded (bytes [0x30])).input D := by
  refine ⟨⟨⟨by decide, 6, by decide, by decide⟩, by decide⟩, ⟨by decide, 1, by decide, by decide⟩,
    ⟨by decide, 0, by decide, by decide⟩, ?_⟩
  rintro ⟨D, hD, p, h, _⟩
  have hin : (loaded (bytes [0x30])).input = [0x30#8] := by decide
  rw [hin] at h
  cases D with
  | nil => cases p with
    | zero => exact absurd h (by decide)
    | succ p => exact absurd (congrArg List.head? h) (by simp [List.replicate_succ, PAD])
  | cons d D =>
    have hd : d < 32 := hD d (by simp)
    have h0 : 0x30#8 = symbol defaultAlpha32 d := by simpa using congrArg List.head? h
    have : ∀ d, d < 32 → 0x30#8 ≠ symbol defaultAlpha32 d := by decide
    exact this d hd h0

theorem witness_Enc64WritesSixBitSymbols :
    (loaded (bytes [1, 2, 3, 4])).cfg.Wf ∧
    (capped 4 8 0 (loaded (bytes [1, 2, 3, 4]))).Fits 0 (4 * ((4 + 2) / 3)) :=
  ⟨test_checks_accept_defaults, by decide⟩

/-- A text with one pad symbol, a short text, and one with a foreign character (`-`). -/
theorem witness_Dec64UnpacksDigits :
    (PaddedText 4 defaultAlpha64 (loaded (bytes [0x54, 0x57, 0x45, 0x3D])).input [19, 22, 4] ∧
      (capped 4 2 0 (loaded (bytes [0x54, 0x57, 0x45, 0x3D]))).Fits 0 (3 * 3 / 4)) ∧
    PaddedText 4 defaultAlpha64 (bytes [0x2F]) [63] ∧
    ¬ ∃ D, PaddedText 4 defaultAlpha64 (loaded (bytes [0x2D])).input D := by
  refine ⟨⟨⟨by decide, 1, by decide, by decide⟩, by decide⟩, ⟨by decide, 0, by decide, by decide⟩, ?_⟩
  rintro ⟨D, hD, p, h, _⟩
  have hin : (loaded (bytes [0x2D])).input = [0x2D#8] := by decide
  rw [hin] at h
  cases D with
  | nil => cases p with
    | zero => exact absurd h (by decide)
    | succ p => exact absurd (congrArg List.head? h) (by simp [List.replicate_succ, PAD])
  | cons d D =>
    have hd : d < 64 := hD d (by simp)
    have h0 : 0x2D#8 = symbol defaultAlpha64 d := by simpa using congrArg List.head? h
    have : ∀ d, d < 64 → 0x2D#8 ≠ symbol defaultAlpha64 d := by decide
    exact this d hd h0

/-- Two leading zero bytes before 01 00, which is 4 * 58 + 24. -/
theorem witness_Enc58WritesPrefixAndDigits :
    (loaded (bytes [0, 0, 1, 0])).cfg.Wf ∧
    (loaded (bytes [0, 0, 1, 0])).input = List.replicate 2 0x00#8 ++ bytes [1, 0] ∧
    (bytes [1, 0]).head? ≠ some 0x00#8 ∧ ProperDigits 58 [4, 24] ∧
    num 58 [4, 24] = num 256 ((bytes [1, 0]).map BitVec.toNat) ∧
    (capped 4 4 2 (loaded (bytes [0, 0, 1, 0]))).Fits 2 (2 + 2) :=
  ⟨test_checks_accept_defaults, by decide, by decide, ⟨by decide, by decide⟩, by decide, by decide⟩

/-- One leading zero symbol before `5R`; and a foreign character. -/
theorem witness_Dec58WritesPrefixAndBytes :
    ((loaded (bytes [0x31, 0x35, 0x52])).cfg.Wf ∧
      (loaded (bytes [0x31, 0x35, 0x52])).input =
        List.replicate 1 (symbol defaultAlpha58 0) ++ [4, 24].map (symbol defaultAlpha58) ∧
      ProperDigits 58 [4, 24] ∧ (bytes [1, 0]).head? ≠ some 0x00#8 ∧
      num 256 ((bytes [1, 0]).map BitVec.toNat) = num 58 [4, 24] ∧
      (capped 3 3 2 (loaded (bytes [0x31, 0x35, 0x52]))).Fits 2 (1 + 2)) ∧
    (admits (some 1) 1 = true ∧ ∃ c ∈ (loaded (bytes [0x30])).input, c ∉ defaultAlpha58) :=
  ⟨⟨test_checks_accept_defaults, by decide, ⟨by decide, by decide⟩, by decide, by decide, by decide⟩, by decide⟩

theorem witness_Enc62WritesDigits :
    (loaded (bytes [0, 1, 0])).cfg.Wf ∧ ProperDigits 62 [4, 8] ∧
    num 62 [4, 8] = num 256 ((loaded (bytes [0, 1, 0])).input.map BitVec.toNat) ∧
    (capped 3 2 2 (loaded (bytes [0, 1, 0]))).Fits 2 2 :=
  ⟨test_checks_accept_defaults, ⟨by decide, by decide⟩, by decide, by decide⟩

theorem witness_Dec62WritesBytes :
    ((loaded (bytes [0x30, 0x34, 0x38])).cfg.Wf ∧ (∀ d ∈ [0, 4, 8], d < 62) ∧
      (loaded (bytes [0x30, 0x34, 0x38])).input = [0, 4, 8].map (symbol defaultAlpha62) ∧
      (bytes [1, 0]).head? ≠ some 0x00#8 ∧ num 256 ((bytes [1, 0]).map BitVec.toNat) = num 62 [0, 4, 8] ∧
      (capped 3 2 2 (loaded (bytes [0x30, 0x34, 0x38]))).Fits 2 2) ∧
    (admits (some 1) 1 = true ∧ ∃ c ∈ (loaded (bytes [0x2B])).input, c ∉ defaultAlpha62) :=
  ⟨⟨test_checks_accept_defaults, by decide⟩, by decide⟩

theorem witness_Enc85WritesBlockDigits :
    (loaded (bytes [1, 2, 3, 4, 5])).cfg.Wf ∧
    (capped 5 10 0 (loaded (bytes [1, 2, 3, 4, 5]))).Fits 0 (5 * ((5 + 3) / 4)) ∧ 4 * 1 < 5 :=
  ⟨test_checks_accept_defaults, by decide⟩

theorem witness_Dec85WritesGroupBytes :
    (admits none 1 = true ∧ (nonWhitespace (loaded (bytes [0x7A])).input).length % 5 ≠ 0) ∧
    ((nonWhitespace (loaded (bytes [0x21, 0x21, 0x21, 0x21, 0x76])).input).length % 5 = 0 ∧
      ∃ c ∈ nonWhitespace (loaded (bytes [0x21, 0x21, 0x21, 0x21, 0x76])).input, c ∉ defaultAlpha85) ∧
    ((loaded (bytes [0x75, 0x75, 0x20, 0x75, 0x75, 0x75])).cfg.Wf ∧ (∀ d ∈ [84, 84, 84, 84, 84], d < 85) ∧
      nonWhitespace (loaded (bytes [0x75, 0x75, 0x20, 0x75, 0x75, 0x75])).input =
        [84, 84, 84, 84, 84].map (symbol defaultAlpha85) ∧
      (capped 6 4 0 (loaded (bytes [0x75, 0x75, 0x20, 0x75, 0x75, 0x75]))).Fits 0 (4 * 1)) :=
  ⟨by decide, by decide, test_checks_accept_defaults, by decide⟩

theorem witness_StepKeepsInvariant :
    (toRun 0x10#8 (loaded (bytes [0xAB]))).Inv ∧ ∃ t, step (toRun 0x10#8 (loaded (bytes [0xAB]))) = .next t :=
  ⟨⟨test_checks_accept_defaults, by decide⟩, _, rfl⟩

theorem witness_ReadsChangeNothing :
    { State.reset with host := [.readReg .status] }.host = .readReg .status :: [] ∧
    (hasStorage (some 8) 7 = true ∧ (loaded (bytes [0x41])).ibuf.read 0 = some 0x41#8) ∧
    { State.reset with host := [.readIbuf 7] }.host = .readIbuf 7 :: [] ∧
    { State.reset with host := [.readObuf 7] }.host = .readObuf 7 :: [] ∧
    { State.reset with obuf := [(7, 1#8)] }.obuf.read 7 = some 1#8 := by decide

theorem witness_IbufWriteStoresOneByte :
    (capped 8 8 2 { State.reset with host := [.writeIbuf 7 1#8] }).host = .writeIbuf 7 1#8 :: [] ∧
    hasStorage (some 8) 7 = true := by decide

theorem witness_IlenWriteStoresLength :
    { State.reset with host := [.writeIlen 15] }.host = .writeIlen 15 :: [] ∧ lengthFits (some 4) 15 = true ∧
    lengthFits (some 4) 16 = false := by decide

theorem witness_ReadOnlyWritesIgnored :
    { State.reset with host := [.writeOlen 3] }.host = .writeOlen 3 :: [] ∧
    { State.reset with host := [.writeStatus 3#8] }.host = .writeStatus 3#8 :: [] ∧
    { State.reset with host := [.writeObuf 7 3#8] }.host = .writeObuf 7 3#8 :: [] ∧ hasStorage (some 8) 7 = true := by
  decide

theorem witness_AccessBeyondCapacityFaults :
    (capped 8 8 2 { State.reset with host := [.readIbuf 8] }).cfg.ibufCap = some 8 ∧ 8 ≤ 8 ∧
    { State.reset with host := [.readIbuf 8] }.host = .readIbuf 8 :: [] ∧
    { State.reset with host := [.writeIbuf 8 1#8] }.host = .writeIbuf 8 1#8 :: [] ∧
    { State.reset with host := [.readObuf 8] }.host = .readObuf 8 :: [] ∧
    { State.reset with host := [.writeObuf 8 1#8] }.host = .writeObuf 8 1#8 :: [] := by decide

theorem witness_ResetValues : { loaded (bytes [1]) with host := [.reset] }.host = .reset :: [] := rfl

theorem witness_IdleHoldsState : State.reset.host = [] := rfl

theorem witness_ParametersNeverChange : ∃ s t : State, s ≠ t ∧ step s = .next t :=
  ⟨toRun 0x10#8 (loaded (bytes [0xAB])), _, by decide, rfl⟩

theorem witness_OnlyCommandsChangeResults :
    (∃ s t : State, step s = .next t ∧ t.olen ≠ s.olen) ∧ ∃ s t : State, step s = .next t ∧ t.ibuf ≠ s.ibuf :=
  ⟨⟨toRun 0x10#8 (loaded (bytes [0xAB])), _, rfl, by decide⟩,
    { State.reset with host := [.writeIbuf 0 1#8] }, _, rfl, by decide⟩

/-- A result of two bytes with room for them, and with room for one. -/
theorem witness_MoveCopiesResult :
    ∃ s : State, s.host = .move :: [] ∧ s.olen = (bytes [5, 6]).length ∧
      (∀ j, j < 2 → s.obuf.read j = (bytes [5, 6])[j]?) ∧
      admits (some 2) s.olen = true ∧ lengthFits (some 2) s.olen = true ∧ admits (some 1) s.olen = false :=
  ⟨{ State.reset with host := [.move], olen := 2, obuf := Memory.ofBytes (bytes [5, 6]) }, by decide⟩

theorem witness_LoadFillsInput :
    ∃ s : State, s.host = (ScriptLine.load (bytes [5, 6])).moves ++ [] ∧
      admits (some 2) (bytes [5, 6]).length = true ∧ lengthFits (some 2) (bytes [5, 6]).length = true :=
  ⟨{ State.reset with host := (ScriptLine.load (bytes [5, 6])).moves }, by decide⟩

theorem witness_InverseLookupInverts : defaultAlpha85.Nodup ∧ defaultAlpha85[84]? = some 0x75#8 := by decide

theorem witness_DigitsAreUnique : 2 ≤ 58 ∧ ProperDigits 58 [4, 24] ∧ num 58 [4, 24] = 256 :=
  ⟨by decide, ⟨by decide, by decide⟩, by decide⟩

/-- For the round trips, `MissingPaddingIsAccepted` and `FixedDecoderDatapath`, which assume the alphabets only, and
the other hypotheses of the Base58 and Base62 ones. -/
theorem witness_RoundTrips :
    alphabetsOk defaultAlphabets = true ∧ (∀ c ∈ bytes [0x31, 0x35, 0x52], c ∈ defaultAlphabets.alpha58) ∧
    (bytes [1, 0]).head? ≠ some 0x00#8 :=
  ⟨test_checks_accept_defaults.1, by decide⟩

/-- Each clause of `ResultLengths` has an input its command succeeds on. -/
theorem witness_ResultLengths :
    enc16 defaultAlphabets (bytes [0xAB]) = .ok (bytes [0x41, 0x42]) ∧
    enc32 defaultAlphabets (bytes [0xFF]) = .ok (bytes [0x37, 0x34, 0x3D, 0x3D, 0x3D, 0x3D, 0x3D, 0x3D]) ∧
    enc64 defaultAlphabets (bytes [0x4D]) = .ok (bytes [0x54, 0x51, 0x3D, 0x3D]) ∧
    enc85 defaultAlphabets (bytes [0]) = .ok (bytes [0x21, 0x21, 0x21, 0x21, 0x21]) ∧
    dec16 defaultAlphabets (bytes [0x46, 0x46]) = .ok (bytes [0xFF]) ∧
    dec32 defaultAlphabets (bytes [0x4D, 0x5A, 0x58]) = .ok (bytes [0x66]) ∧
    dec64 defaultAlphabets (bytes [0x54, 0x51, 0x3D]) = .ok (bytes [0x4D]) ∧
    dec85 defaultAlphabets (bytes [0x21, 0x21, 0x21, 0x21, 0x0A, 0x21]) = .ok (bytes [0, 0, 0, 0]) := by decide

theorem witness_BigIntegerLengthBounds :
    enc58 defaultAlphabets (List.replicate 1 0x00#8 ++ bytes [0xFF]) = .ok (bytes [0x31, 0x35, 0x51]) ∧
    enc62 defaultAlphabets (bytes [0xFF]) = .ok (bytes [0x34, 0x37]) ∧
    dec58 defaultAlphabets (List.replicate 1 (symbol defaultAlpha58 0) ++ bytes [0x35, 0x51]) = .ok (bytes [0, 0xFF]) ∧
    (bytes [0x35, 0x51]).head? ≠ some (symbol defaultAlpha58 0) ∧
    dec62 defaultAlphabets (bytes [0x34, 0x37]) = .ok (bytes [0xFF]) := by decide

theorem witness_BigDecoderDatapath :
    lookupAll defaultAlpha58 (bytes [0x31, 0x35]) = some [0, 4] ∧
    lookupAll defaultAlpha62 (bytes [0x30, 0x7A]) = some [0, 61] := by decide

theorem witness_FixedRegisterBounds : 4 ∈ [4, 5, 6] ∧ 5 ∈ [4, 5, 6] ∧ 6 ∈ [4, 5, 6] := by decide

/-- The largest digits: the encode step flushes two digits, the decode step one byte. -/
theorem witness_BigRegisterBounds :
    58 ∈ [58, 62] ∧ 62 ∈ [58, 62] ∧ (∀ x ∈ [57], x < 58) ∧ 255 ≤ 255 ∧ (∀ x ∈ [255], x < 256) ∧ 61 ≤ 62 - 1 := by
  decide

/-- At the last address of a window, at the largest byte and the first number that is none, and just past the
window. -/
theorem witness_BusAccessIsNamedAccess :
    busPlace (onBus State.reset).cfg.regmap 0x207 = some (.ibuf 7) ∧
    { onBus State.reset with host := [.busRead 0x207] }.host = .busRead 0x207 :: [] ∧
    { onBus State.reset with host := [.busWrite 0x207 255] }.host = .busWrite 0x207 255 :: [] ∧
    placeTakes 255 (.ibuf 7) ∧ ¬ placeTakes 256 (.reg .cmd) ∧
    busPlace (onBus State.reset).cfg.regmap 0x208 = none ∧
    windowPlace 0x101 (.reg 0x100 .cmd) = none ∧ windowPlace 0x101 (.reg 0x101 .ilen) = some (.reg .ilen) := by
  refine ⟨by decide, rfl, rfl, ?_, ?_, by decide, by decide, by decide⟩ <;> (unfold placeTakes; decide)

end Sys2Proof.Tests
end

