-- ==== Sys2Proof/Proofs/Parameters.lean ====
section
/-! The parameters and tables are fixed (R5, R21, R172): which next state each move of the host answers, and that
every one of them has the configuration of the state before. -/

namespace Sys2Proof.Machine

variable {s t : State}

/-! ## When a guarded move answers a next state, and which -/

theorem writeIlen_eq_next {n : Nat} :
    writeIlen n s = .next t ↔ lengthFits s.cfg.lenW n = true ∧ s.setIlen n = t := by
  unfold writeIlen; split <;> simp [*]

theorem writeIbuf_eq_next {i : Nat} {v : Byte} :
    writeIbuf i v s = .next t ↔ hasStorage s.cfg.ibufCap i = true ∧ s.setIbuf i v = t := by
  unfold writeIbuf; split <;> simp [*]

theorem writeObuf_eq_next {j : Nat} :
    writeObuf j s = .next t ↔ hasStorage s.cfg.obufCap j = true ∧ s = t := by
  unfold writeObuf; split <;> simp [*]

theorem readReg_eq_next {r : HostReg} : readReg r s = .next t ↔ s.setRdata (s.regValue r) = t := by
  simp [readReg]

theorem readIbuf_eq_next {i : Nat} :
    readIbuf i s = .next t ↔
      hasStorage s.cfg.ibufCap i = true ∧ (s.setRdata (s.ibuf.readOrFree s.draws i).toNat).drew 1 = t := by
  unfold readIbuf; split <;> simp [*]

theorem readObuf_eq_next {j : Nat} :
    readObuf j s = .next t ↔
      hasStorage s.cfg.obufCap j = true ∧ (s.setRdata (s.obuf.readOrFree s.draws j).toNat).drew 1 = t := by
  unfold readObuf; split <;> simp [*]

theorem moveResult_eq_next :
    moveResult s = .next t ↔
      admits s.cfg.ibufCap s.olen = true ∧ writeIlen s.olen ((List.range s.olen).foldl copyByte s) = .next t := by
  unfold moveResult; split <;> simp [*]

/-! ## Every next state has the configuration of the state before -/

/-- All five ends of a command keep the parameters and tables. -/
theorem exec_keeps_cfg {i : Instr} (h : exec i s = .next t) : t.cfg = s.cfg := by
  rcases exec_cases i s with ⟨-, he⟩ | ⟨-, ⟨k, -, he⟩ | ⟨out, -, ⟨-, he⟩ | ⟨-, he⟩⟩⟩
  all_goals
    obtain rfl := Host.Outcome.next.inj (he.symm.trans h)
    simp

theorem writeCmd_keeps_cfg {w : CmdWord} (h : writeCmd w s = .next t) : t.cfg = s.cfg := by
  rcases writeCmd_cases w s with ⟨i, -, hw⟩ | ⟨e, -, hw⟩
  · exact (exec_keeps_cfg (hw.symm.trans h)).trans (State.setCmd_cfg s w)
  · obtain rfl := Host.Outcome.next.inj (hw.symm.trans h)
    simp

theorem writeIlen_keeps_cfg {n : Nat} (h : writeIlen n s = .next t) : t.cfg = s.cfg := by
  obtain ⟨-, rfl⟩ := writeIlen_eq_next.mp h
  simp

theorem writeIbuf_keeps_cfg {i : Nat} {v : Byte} (h : writeIbuf i v s = .next t) : t.cfg = s.cfg := by
  obtain ⟨-, rfl⟩ := writeIbuf_eq_next.mp h
  simp

theorem writeObuf_keeps_cfg {j : Nat} (h : writeObuf j s = .next t) : t.cfg = s.cfg := by
  obtain ⟨-, rfl⟩ := writeObuf_eq_next.mp h
  rfl

/-- `MOVE` keeps the parameters: its copied bytes do, and so does the `ILEN` write after them. -/
theorem moveResult_keeps_cfg (h : moveResult s = .next t) : t.cfg = s.cfg := by
  obtain ⟨-, hw⟩ := moveResult_eq_next.mp h
  obtain ⟨hcopy, -⟩ := copyBytes_frame s (List.range s.olen)
  exact (writeIlen_keeps_cfg hw).trans hcopy

/-- A read by name and index keeps the parameters, whatever place it reads. -/
theorem readMove_keeps_cfg {p : Place} (h : hostMove (readMove p) s = .next t) : t.cfg = s.cfg := by
  cases p with
  | reg r =>
    obtain rfl := readReg_eq_next.mp h
    simp
  | ibuf i =>
    obtain ⟨-, rfl⟩ := readIbuf_eq_next.mp h
    simp
  | obuf j =>
    obtain ⟨-, rfl⟩ := readObuf_eq_next.mp h
    simp

/-- A write by name and index keeps the parameters, whatever place it writes. -/
theorem writeMove_keeps_cfg {p : Place} {v : Nat} (h : hostMove (writeMove v p) s = .next t) : t.cfg = s.cfg := by
  cases p with
  | reg r =>
    cases r with
    | cmd => exact writeCmd_keeps_cfg h
    | ilen => exact writeIlen_keeps_cfg h
    | olen | status => cases h; rfl
  | ibuf i => exact writeIbuf_keeps_cfg h
  | obuf j => exact writeObuf_keeps_cfg h

theorem busRead_keeps_cfg {addr : Nat} (h : busRead addr s = .next t) : t.cfg = s.cfg := by
  rcases busRead_cases addr s with ⟨p, -, hr⟩ | ⟨-, hr⟩
  · exact readMove_keeps_cfg (hr.symm.trans h)
  · simp [hr] at h

theorem busWrite_keeps_cfg {addr v : Nat} (h : busWrite addr v s = .next t) : t.cfg = s.cfg := by
  rcases busWrite_cases addr v s with ⟨p, -, ⟨-, hw⟩ | ⟨-, hw⟩⟩ | ⟨-, hw⟩
  · exact writeMove_keeps_cfg (hw.symm.trans h)
  · simp [hw] at h
  · simp [hw] at h

/-- No move of the host changes a parameter or a table, reset included (R172). -/
theorem hostMove_keeps_cfg {a : HostMove} (h : hostMove a s = .next t) : t.cfg = s.cfg := by
  cases a with
  | reset => cases h; simp
  | writeCmd w => exact writeCmd_keeps_cfg h
  | writeIlen n => exact writeIlen_keeps_cfg h
  | writeIbuf i v => exact writeIbuf_keeps_cfg h
  | writeOlen _ | writeStatus _ => cases h; rfl
  | writeObuf j v => exact writeObuf_keeps_cfg h
  | readReg r => exact readMove_keeps_cfg (p := .reg r) h
  | readIbuf i => exact readMove_keeps_cfg (p := .ibuf i) h
  | readObuf j => exact readMove_keeps_cfg (p := .obuf j) h
  | busRead addr => exact busRead_keeps_cfg h
  | busWrite addr v => exact busWrite_keeps_cfg h
  | move => exact moveResult_keeps_cfg h

theorem step_nil (h : s.host = []) : step s = .next s := by simp [step, hostStep, h]

/-- A step is idle or the host's next move; neither changes a parameter or a table (R5). -/
theorem step_keeps_cfg (h : step s = .next t) : t.cfg = s.cfg := by
  cases hs : s.host with
  | nil =>
    rw [step_nil hs] at h
    cases h; rfl
  | cons a rest =>
    rw [step_cons hs] at h
    exact (hostMove_keeps_cfg h).trans (State.setHost_cfg s rest)

end Sys2Proof.Machine

namespace Sys2Proof

/-- Settles O39: each move of the host, and so each step, answers a state with the same configuration. -/
theorem parametersNeverChange : Obligations.ParametersNeverChange := by
  unfold Obligations.ParametersNeverChange
  intro s t h
  exact Machine.step_keeps_cfg h

end Sys2Proof
end

