-- ==== Sys2Proof/Proofs/Invariant.lean ====
section
/-! The invariant (R10 to R16, R30, R47, R80 to R85): each operation on the state keeps it, so each move of the host
does, and so does every step. -/

namespace Sys2Proof.Machine

variable {s t : State}

/-! ## Lengths and capacities -/

theorem lengthFits_zero (lenW : Option Nat) : lengthFits lenW 0 = true := by
  cases lenW <;> simp [lengthFits]

/-- R4 makes `LEN_W` wide enough for every length that `OBUF` can hold. -/
theorem lengthFits_of_admits_obufCap {c : Config} {n : Nat} (hc : lenWOk c = true)
    (hn : admits c.obufCap n = true) : lengthFits c.lenW n = true := by
  obtain ⟨ibufCap, obufCap, accCap, lenW, regmap, alphabets⟩ := c
  cases lenW with
  | none => rfl
  | some w =>
    cases ibufCap with
    | none => simp [lenWOk] at hc
    | some i =>
      cases obufCap with
      | none => simp [lenWOk] at hc
      | some o =>
        simp only [lenWOk, Bool.and_eq_true, decide_eq_true_eq] at hc
        simp only [admits, lengthFits, decide_eq_true_eq] at hn ⊢
        omega

/-- Every index below a count within the capacity has storage behind it (R47). -/
theorem hasStorage_of_lt {cap : Option Nat} {n j : Nat} (hn : admits cap n = true) (hj : j < n) :
    hasStorage cap j = true := by
  cases cap with
  | none => rfl
  | some c =>
    simp only [hasStorage, admits, decide_eq_true_eq] at hn ⊢
    omega

theorem ErrorKind.code_toNat_le (k : ErrorKind) : k.code.toNat ≤ 4 := by cases k <;> decide

/-! ## Each operation on the state keeps the invariant

`CMD` and the model's own fields are none of its business, so these operations keep it by definition. -/

theorem State.Inv.setHost (hs : s.Inv) (moves : List HostMove) : (s.setHost moves).Inv := hs

theorem State.Inv.setCmd (hs : s.Inv) (w : CmdWord) : (s.setCmd w).Inv := hs

theorem State.Inv.setRdata (hs : s.Inv) (n : Nat) : (s.setRdata n).Inv := hs

theorem State.Inv.drew (hs : s.Inv) (n : Nat) : (s.drew n).Inv := hs

theorem State.Inv.tookInput (hs : s.Inv) : s.tookInput.Inv := hs.drew s.ilen

theorem State.Inv.setIlen (hs : s.Inv) {n : Nat} (hn : lengthFits s.cfg.lenW n = true) : (s.setIlen n).Inv := by
  obtain ⟨hcfg, ⟨-, holen⟩, hrest⟩ := hs
  exact ⟨hcfg, ⟨hn, holen⟩, hrest⟩

theorem State.Inv.setIbuf (hs : s.Inv) {i : Nat} (v : Byte) (hi : hasStorage s.cfg.ibufCap i = true) :
    (s.setIbuf i v).Inv := by
  obtain ⟨hcfg, hlens, ⟨hwf, hin⟩, hrest⟩ := hs
  exact ⟨hcfg, hlens, ⟨Memory.write_wf hwf i v, Memory.write_within hin v hi⟩, hrest⟩

/-- Reset needs only that the parameters meet R4 and R30 (R170, R172). -/
theorem State.applyReset_inv (hc : s.cfg.Wf) : s.applyReset.Inv :=
  ⟨hc, ⟨lengthFits_zero _, lengthFits_zero _⟩, Memory.empty_ok _, Memory.empty_ok _, rfl, by simp, by simp⟩

/-- A failure leaves `OLEN` 0 and no specified byte in `OBUF` (R84). -/
theorem State.Inv.fail (hs : s.Inv) (k : ErrorKind) : (s.fail k).Inv := by
  obtain ⟨hcfg, ⟨hilen, -⟩, hibuf, -⟩ := hs
  exact ⟨hcfg, ⟨hilen, lengthFits_zero _⟩, hibuf, Memory.empty_ok _, rfl, k.code_toNat_le, fun _ => rfl⟩

/-- A success whose result fits `OBUF` (R85) fills exactly `OBUF[0..OLEN)` (R83). -/
theorem State.Inv.succeed (hs : s.Inv) {out : List Byte} (hout : admits s.cfg.obufCap out.length = true) :
    (s.succeed out).Inv := by
  obtain ⟨hcfg, ⟨hilen, -⟩, hibuf, -⟩ := hs
  exact ⟨hcfg, ⟨hilen, lengthFits_of_admits_obufCap hcfg.2 hout⟩, hibuf,
    ⟨Memory.ofBytes_wf out, Memory.ofBytes_within hout⟩, Memory.ofBytes_keys out, by simp [statusOk],
    fun h => absurd rfl h⟩

/-- The bytes that `MOVE` copies, where each has storage in `IBUF` (R68). -/
theorem copyBytes_inv (hs : s.Inv) {js : List Nat} (hjs : ∀ j ∈ js, hasStorage s.cfg.ibufCap j = true) :
    (js.foldl copyByte s).Inv := by
  induction js generalizing s with
  | nil => exact hs
  | cons j js ih =>
    obtain ⟨hj, hjs⟩ := List.forall_mem_cons.mp hjs
    obtain ⟨hcfg, -⟩ := copyByte_frame s j
    exact ih (((hs.setRdata _).drew 1).setIbuf _ hj) (hcfg ▸ hjs)

/-! ## Each move keeps the invariant -/

/-- All five ends of a command keep the invariant (R80 to R86). -/
theorem exec_keeps_inv {i : Instr} (hs : s.Inv) (h : exec i s = .next t) : t.Inv := by
  rcases exec_cases i s with ⟨-, he⟩ | ⟨-, ⟨k, -, he⟩ | ⟨out, -, ⟨-, he⟩ | ⟨⟨-, hout⟩, he⟩⟩⟩ <;>
    obtain rfl := Host.Outcome.next.inj (he.symm.trans h)
  · exact hs.fail _
  · exact hs.tookInput.fail k
  · exact hs.tookInput.fail _
  · exact hs.tookInput.succeed hout

theorem writeCmd_keeps_inv {w : CmdWord} (hs : s.Inv) (h : writeCmd w s = .next t) : t.Inv := by
  rcases writeCmd_cases w s with ⟨i, -, hw⟩ | ⟨e, -, hw⟩
  · exact exec_keeps_inv (hs.setCmd w) (hw.symm.trans h)
  · obtain rfl := Host.Outcome.next.inj (hw.symm.trans h)
    exact (hs.setCmd w).fail _

theorem writeIlen_keeps_inv {n : Nat} (hs : s.Inv) (h : writeIlen n s = .next t) : t.Inv := by
  obtain ⟨hn, rfl⟩ := writeIlen_eq_next.mp h
  exact hs.setIlen hn

/-- `MOVE` needs `OLEN <= IBUF_CAP`, so every byte it copies has storage in `IBUF` (R68). -/
theorem moveResult_keeps_inv (hs : s.Inv) (h : moveResult s = .next t) : t.Inv := by
  obtain ⟨holen, hw⟩ := moveResult_eq_next.mp h
  exact writeIlen_keeps_inv
    (copyBytes_inv hs fun j hj => hasStorage_of_lt holen (List.mem_range.mp hj)) hw

/-- Whether a move is an access at a bus address and not one by name and index (R50). -/
def HostMove.onBus : HostMove → Bool
  | .busRead _ => true
  | .busWrite _ _ => true
  | _ => false

theorem readMove_not_onBus (p : Place) : (readMove p).onBus = false := by cases p <;> rfl

theorem writeMove_not_onBus (v : Nat) (p : Place) : (writeMove v p).onBus = false := by
  rcases p with (_ | _ | _ | _) | _ | _ <;> rfl

/-- What a move at a bus address answers, a move by name and index answers too (R50). -/
theorem exists_named_hostMove {a : HostMove} (h : hostMove a s = .next t) :
    ∃ b : HostMove, b.onBus = false ∧ hostMove b s = .next t := by
  cases hbus : a.onBus with
  | false => exact ⟨a, hbus, h⟩
  | true =>
    cases a with
    | busRead addr =>
      rcases busRead_cases addr s with ⟨p, -, hr⟩ | ⟨-, hr⟩
      · exact ⟨readMove p, readMove_not_onBus p, hr.symm.trans h⟩
      · cases hr.symm.trans h
    | busWrite addr v =>
      rcases busWrite_cases addr v s with ⟨p, -, ⟨-, hw⟩ | ⟨-, hw⟩⟩ | ⟨-, hw⟩
      · exact ⟨writeMove v p, writeMove_not_onBus v p, hw.symm.trans h⟩
      · cases hw.symm.trans h
      · cases hw.symm.trans h
    | _ => cases hbus

/-- A move by name and index keeps the invariant. -/
theorem namedMove_keeps_inv {a : HostMove} (ha : a.onBus = false) (hs : s.Inv) (h : hostMove a s = .next t) :
    t.Inv := by
  cases a with
  | reset =>
    cases h
    exact State.applyReset_inv hs.1
  | writeCmd w => exact writeCmd_keeps_inv hs h
  | writeIlen n => exact writeIlen_keeps_inv hs h
  | writeIbuf i v =>
    obtain ⟨hi, rfl⟩ := writeIbuf_eq_next.mp h
    exact hs.setIbuf v hi
  | writeOlen _ | writeStatus _ =>
    cases h
    exact hs
  | writeObuf j v =>
    obtain ⟨-, rfl⟩ := writeObuf_eq_next.mp h
    exact hs
  | readReg r =>
    obtain rfl := readReg_eq_next.mp h
    exact hs.setRdata _
  | readIbuf i =>
    obtain ⟨-, rfl⟩ := readIbuf_eq_next.mp h
    exact (hs.setRdata _).drew 1
  | readObuf j =>
    obtain ⟨-, rfl⟩ := readObuf_eq_next.mp h
    exact (hs.setRdata _).drew 1
  | busRead _ | busWrite _ _ => cases ha
  | move => exact moveResult_keeps_inv hs h

/-- A step is idle or the host's next move, which one by name and index stands for. -/
theorem step_keeps_inv (hs : s.Inv) (h : step s = .next t) : t.Inv := by
  cases hhost : s.host with
  | nil =>
    rw [step_nil hhost] at h
    cases h
    exact hs
  | cons a rest =>
    rw [step_cons hhost] at h
    obtain ⟨b, hb, hnamed⟩ := exists_named_hostMove h
    exact namedMove_keeps_inv hb (hs.setHost rest) hnamed

theorem defaultConfig_wf : defaultConfig.Wf := by decide

/-- The state after power-on is the one a reset of it gives. -/
theorem State.reset_inv : State.reset.Inv := State.applyReset_inv (s := State.reset) defaultConfig_wf

end Sys2Proof.Machine

namespace Sys2Proof

/-- Settles O31: each operation on the state keeps the invariant, so each move of the host and each step does. -/
theorem stepKeepsInvariant : Obligations.StepKeepsInvariant := by
  unfold Obligations.StepKeepsInvariant
  intro s t hs h
  exact Machine.step_keeps_inv hs h

/-- Settles O30: the default parameters meet R4 and R30, and a reset under such parameters meets the invariant. -/
theorem resetMeetsInvariant : Obligations.ResetMeetsInvariant := Machine.State.reset_inv

end Sys2Proof
end

