-- ==== Sys2Proof/Proofs/InverseLookup.lean ====
section
/-! The inverse lookup of a table with no repeated symbol (R22). -/

namespace Sys2Proof.Machine

/-- In a table with no repeated symbol the lookup of an entry gives its index (R22). -/
theorem inverse_of_getElem? {table : List Byte} (hn : table.Nodup) {i : Nat} {c : Byte} (h : table[i]? = some c) :
    inverse table c = some i := by
  obtain ⟨hi, -⟩ := List.getElem?_eq_some_iff.mp h
  have hc : symbol table i = c := Option.some.inj ((getElem?_symbol hi).symm.trans h)
  exact hc ▸ inverse_symbol hn hi

end Sys2Proof.Machine

namespace Sys2Proof

open Machine

/-- Settles O43: the lookup of an entry gives its index, and a byte is not found exactly when it is no symbol. -/
theorem inverseLookupInverts : Obligations.InverseLookupInverts := by
  unfold Obligations.InverseLookupInverts
  intro table hn
  refine ⟨fun i c h => inverse_of_getElem? hn h, fun c => ?_⟩
  rw [inverse_none, List.mem_iff_getElem?, not_exists]

end Sys2Proof
end

