-- ==== Sys2Proof/Proofs/HostAccess.lean ====
section
/-! The host's reads and writes by name and index (R12 to R17, R19): the state that the step at each of them
answers. -/

namespace Sys2Proof.Machine

variable {s : State} {rest : List HostMove}

/-! ## The step at each access -/

theorem step_readReg {r : HostReg} (h : s.host = .readReg r :: rest) :
    step s = .next ((s.setHost rest).setRdata (s.regValue r)) := by
  rw [step_cons h]
  cases r <;> rfl

theorem step_readIbuf {i : Nat} (h : s.host = .readIbuf i :: rest) (hi : hasStorage s.cfg.ibufCap i = true) :
    step s = .next (((s.setHost rest).setRdata (s.ibuf.readOrFree s.draws i).toNat).drew 1) := by
  rw [step_cons h]
  exact readIbuf_eq_next.mpr ⟨hi, rfl⟩

theorem step_readObuf {j : Nat} (h : s.host = .readObuf j :: rest) (hj : hasStorage s.cfg.obufCap j = true) :
    step s = .next (((s.setHost rest).setRdata (s.obuf.readOrFree s.draws j).toNat).drew 1) := by
  rw [step_cons h]
  exact readObuf_eq_next.mpr ⟨hj, rfl⟩

theorem step_writeIbuf {i : Nat} {v : Byte} (h : s.host = .writeIbuf i v :: rest)
    (hi : hasStorage s.cfg.ibufCap i = true) : step s = .next ((s.setHost rest).setIbuf i v) := by
  rw [step_cons h]
  exact writeIbuf_eq_next.mpr ⟨hi, rfl⟩

theorem step_writeIlen {n : Nat} (h : s.host = .writeIlen n :: rest) (hn : lengthFits s.cfg.lenW n = true) :
    step s = .next ((s.setHost rest).setIlen n) := by
  rw [step_cons h]
  exact writeIlen_eq_next.mpr ⟨hn, rfl⟩

theorem step_writeIlen_refused {n : Nat} (h : s.host = .writeIlen n :: rest)
    (hn : lengthFits s.cfg.lenW n = false) : step s = .refused (.lengthTooWide n) := by
  rw [step_cons h]
  simp [hostMove, writeIlen, hn]

theorem step_writeOlen {n : Nat} (h : s.host = .writeOlen n :: rest) : step s = .next (s.setHost rest) := step_cons h

theorem step_writeStatus {v : Byte} (h : s.host = .writeStatus v :: rest) : step s = .next (s.setHost rest) :=
  step_cons h

theorem step_writeObuf {j : Nat} {v : Byte} (h : s.host = .writeObuf j v :: rest)
    (hj : hasStorage s.cfg.obufCap j = true) : step s = .next (s.setHost rest) := by
  rw [step_cons h]
  exact writeObuf_eq_next.mpr ⟨hj, rfl⟩

/-! ## What a read answers -/

/-- Taking a move off and latching a value touch nothing of the block. -/
theorem sameBlock_setRdata (s : State) (moves : List HostMove) (n : Nat) :
    SameBlock s ((s.setHost moves).setRdata n) := by simp [SameBlock]

/-- Counting free bytes touches nothing of the block. -/
theorem SameBlock.drew {s t : State} (h : SameBlock s t) (n : Nat) : SameBlock s (t.drew n) := h

theorem Memory.readOrFree_of_read {m : Memory} {a : Nat} {v : Byte} (h : m.read a = some v) (n : Nat) :
    m.readOrFree n a = v := by simp [Memory.readOrFree, h]

end Sys2Proof.Machine

namespace Sys2Proof

open Machine

/-- Settles O32: the step at a read only takes the move off, latches the value and counts a free byte. -/
theorem readsChangeNothing : Obligations.ReadsChangeNothing := by
  unfold Obligations.ReadsChangeNothing
  intro s rest
  refine ⟨fun r h => ?_, fun i h hi => ?_, fun j h hj => ?_⟩
  · exact ⟨_, step_readReg h, sameBlock_setRdata s rest _, rfl, rfl⟩
  · refine ⟨_, step_readIbuf h hi, (sameBlock_setRdata s rest _).drew 1, rfl, fun v hv => ?_⟩
    simp [Memory.readOrFree_of_read hv]
  · refine ⟨_, step_readObuf h hj, (sameBlock_setRdata s rest _).drew 1, rfl, fun v hv => ?_⟩
    simp [Memory.readOrFree_of_read hv]

/-- Settles O33, by the laws of a buffer: a read after a write to the same index and to another. -/
theorem ibufWriteStoresOneByte : Obligations.IbufWriteStoresOneByte := by
  unfold Obligations.IbufWriteStoresOneByte
  intro s i v rest h hi
  exact ⟨_, step_writeIbuf h hi, Memory.read_write_same s.ibuf i v,
    fun a ha => Memory.read_write_other s.ibuf v ha, rfl⟩

/-- Settles O34: a number that `LEN_W` bits hold is stored, any other refused. -/
theorem ilenWriteStoresLength : Obligations.IlenWriteStoresLength := by
  unfold Obligations.IlenWriteStoresLength
  intro s n rest h
  exact ⟨step_writeIlen h, step_writeIlen_refused h⟩

/-- Settles O35: each of the three ignored writes only takes the move off. -/
theorem readOnlyWritesIgnored : Obligations.ReadOnlyWritesIgnored := by
  unfold Obligations.ReadOnlyWritesIgnored
  intro s rest
  exact ⟨fun n h => step_writeOlen h, fun v h => step_writeStatus h, fun j v h hj => step_writeObuf h hj⟩

/-- Settles O38: the step with no move to come is idle. -/
theorem idleHoldsState : Obligations.IdleHoldsState := by
  unfold Obligations.IdleHoldsState
  intro s h
  exact step_nil h

end Sys2Proof
end

/-! The two buffers behind the host's port (R20, R47, R48, R50): an access past a buffer's capacity faults, a bus
access is the access by name and index of what `REGMAP` puts at the address, and a command's results come from the
written input and the parameters alone. -/

namespace Sys2Proof.Machine

variable {s : State}

/-! ## Accesses past a capacity -/

/-- An index has storage exactly when it is below the capacity, if there is one (R47). -/
theorem hasStorage_iff {cap : Option Nat} {k : Nat} : hasStorage cap k = true ↔ ∀ c ∈ cap, k < c := by
  cases cap with
  | none => simp [hasStorage, admits]
  | some c => simp [hasStorage, admits]

theorem hasStorage_some_of_le {c i : Nat} (h : c ≤ i) : hasStorage (some c) i = false := by
  rw [Bool.eq_false_iff, ne_eq, hasStorage_iff]
  exact fun hlt => absurd (hlt c rfl) (Nat.not_lt.mpr h)

theorem readIbuf_eq_fault {i : Nat} (h : hasStorage s.cfg.ibufCap i = false) :
    readIbuf i s = .fault (.bufferIndexBeyondCapacity i) := by simp [readIbuf, h]

theorem writeIbuf_eq_fault {i : Nat} (v : Byte) (h : hasStorage s.cfg.ibufCap i = false) :
    writeIbuf i v s = .fault (.bufferIndexBeyondCapacity i) := by simp [writeIbuf, h]

theorem readObuf_eq_fault {j : Nat} (h : hasStorage s.cfg.obufCap j = false) :
    readObuf j s = .fault (.bufferIndexBeyondCapacity j) := by simp [readObuf, h]

theorem writeObuf_eq_fault {j : Nat} (h : hasStorage s.cfg.obufCap j = false) :
    writeObuf j s = .fault (.bufferIndexBeyondCapacity j) := by simp [writeObuf, h]

end Sys2Proof.Machine

namespace Sys2Proof

open Machine

/-- Settles O36: an index at or above the capacity has no storage, where each of the four accesses faults. -/
theorem accessBeyondCapacityFaults : Obligations.AccessBeyondCapacityFaults := by
  unfold Obligations.AccessBeyondCapacityFaults
  intro s i c v rest hci
  have hno : hasStorage (some c) i = false := hasStorage_some_of_le hci
  constructor
  · rintro hcap (h | h) <;> rw [step_cons h]
    · exact readIbuf_eq_fault (hcap ▸ hno)
    · exact writeIbuf_eq_fault v (hcap ▸ hno)
  · rintro hcap (h | h) <;> rw [step_cons h]
    · exact readObuf_eq_fault (hcap ▸ hno)
    · exact writeObuf_eq_fault (hcap ▸ hno)

end Sys2Proof

namespace Sys2Proof.Machine

variable {s : State}

/-! ## What a bus access is -/

theorem step_setHost_cons (s : State) (a : HostMove) (rest : List HostMove) :
    step (s.setHost (a :: rest)) = hostMove a (s.setHost rest) := step_cons rfl

theorem busRead_of_mapped {addr : Nat} {p : Place} (hp : busPlace s.cfg.regmap addr = some p) :
    busRead addr s = hostMove (readMove p) s := by simp [busRead, hp, readPlace_eq]

theorem busWrite_of_mapped {addr : Nat} (v : Nat) {p : Place} (hp : busPlace s.cfg.regmap addr = some p) :
    busWrite addr v s = writePlace p v s := by simp [busWrite, hp]

theorem busRead_of_unmapped {addr : Nat} (hp : busPlace s.cfg.regmap addr = none) :
    busRead addr s = .refused (.unmappedBusAddress addr) := by simp [busRead, hp]

theorem busWrite_of_unmapped {addr : Nat} (v : Nat) (hp : busPlace s.cfg.regmap addr = none) :
    busWrite addr v s = .refused (.unmappedBusAddress addr) := by simp [busWrite, hp]

theorem writePlace_of_takes {v : Nat} {p : Place} (h : placeTakes v p) :
    writePlace p v s = hostMove (writeMove v p) s := by
  rcases writePlace_cases p v s with ⟨-, hw⟩ | ⟨hn, -⟩
  · exact hw
  · exact absurd h hn

theorem writePlace_of_not_takes {v : Nat} {p : Place} (h : ¬ placeTakes v p) :
    writePlace p v s = .refused (.busValueTooWide v) := by
  rcases writePlace_cases p v s with ⟨ht, -⟩ | ⟨-, hw⟩
  · exact absurd ht h
  · exact hw

/-! ## What `REGMAP` puts at an address -/

/-- The first window that has an address decides (entry 12). -/
theorem busPlace_append_cons {before : List BusWindow} {w : BusWindow} {addr : Nat} {p : Place}
    (hbefore : ∀ u ∈ before, windowPlace addr u = none) (hw : windowPlace addr w = some p) (after : List BusWindow) :
    busPlace (before ++ w :: after) addr = some p := by
  simp [busPlace, List.findSome?_append, List.findSome?_eq_none_iff.mpr hbefore, hw]

theorem windowPlace_reg_eq_some {addr a : Nat} {r : HostReg} {p : Place} :
    windowPlace addr (.reg a r) = some p ↔ addr = a ∧ p = .reg r := by
  simp [windowPlace, eq_comm (a := p)]

/-- The addresses of a buffer window, `place` naming the buffer: those at an offset `k` below its count. -/
theorem bufferWindow_eq_some {addr base first : Nat} {count : Option Nat} {place : Nat → Place} {p : Place} :
    (if base ≤ addr ∧ hasStorage count (addr - base) = true then some (place (first + (addr - base))) else none) =
        some p ↔
      ∃ k, addr = base + k ∧ (∀ c ∈ count, k < c) ∧ p = place (first + k) := by
  rw [Option.ite_none_right_eq_some, hasStorage_iff, Option.some_inj]
  constructor
  · rintro ⟨⟨hle, hcount⟩, rfl⟩
    exact ⟨addr - base, (Nat.add_sub_of_le hle).symm, hcount, rfl⟩
  · rintro ⟨k, rfl, hcount, rfl⟩
    rw [Nat.add_sub_cancel_left]
    exact ⟨⟨Nat.le_add_right base k, hcount⟩, rfl⟩

theorem windowPlace_ibuf_eq_some {addr base first : Nat} {count : Option Nat} {p : Place} :
    windowPlace addr (.ibuf base first count) = some p ↔
      ∃ k, addr = base + k ∧ (∀ c ∈ count, k < c) ∧ p = .ibuf (first + k) := bufferWindow_eq_some

theorem windowPlace_obuf_eq_some {addr base first : Nat} {count : Option Nat} {p : Place} :
    windowPlace addr (.obuf base first count) = some p ↔
      ∃ k, addr = base + k ∧ (∀ c ∈ count, k < c) ∧ p = .obuf (first + k) := bufferWindow_eq_some

end Sys2Proof.Machine

namespace Sys2Proof

open Machine

/-- Settles O60: the step at a bus access runs the move of the place at the address, or is refused; the place is the
first window's that has the address. -/
theorem busAccessIsNamedAccess : Obligations.BusAccessIsNamedAccess := by
  unfold Obligations.BusAccessIsNamedAccess
  refine ⟨fun s addr v p rest hp => ⟨fun h => ?read, fun h => ⟨fun ht => ?write, fun hn => ?tooWide⟩⟩, ?unmapped,
    fun before after w addr p hb hw => busPlace_append_cons hb hw after,
    fun addr a base first r count p => ⟨windowPlace_reg_eq_some, windowPlace_ibuf_eq_some, windowPlace_obuf_eq_some⟩⟩
  case read =>
    calc step s = hostMove (readMove p) (s.setHost rest) := (step_cons h).trans (busRead_of_mapped hp)
      _ = step { s with host := readMove p :: rest } := (step_setHost_cons s _ rest).symm
  case write =>
    calc step s = writePlace p v (s.setHost rest) := (step_cons h).trans (busWrite_of_mapped v hp)
      _ = hostMove (writeMove v p) (s.setHost rest) := writePlace_of_takes ht
      _ = step { s with host := writeMove v p :: rest } := (step_setHost_cons s _ rest).symm
  case tooWide =>
    calc step s = writePlace p v (s.setHost rest) := (step_cons h).trans (busWrite_of_mapped v hp)
      _ = .refused (.busValueTooWide v) := writePlace_of_not_takes hn
  case unmapped =>
    rintro s addr v rest hp (h | h)
    · exact (step_cons h).trans (busRead_of_unmapped hp)
    · exact (step_cons h).trans (busWrite_of_unmapped v hp)

end Sys2Proof

namespace Sys2Proof.Machine

variable {s t : State}

/-! ## What a command's results depend on -/

/-- Two states hold the same results of a command (R20): `STATUS`, `OLEN` and `OBUF`. -/
def SameResults (s t : State) : Prop := s.status = t.status ∧ s.olen = t.olen ∧ s.obuf = t.obuf

/-- A failure overwrites every result (R84). -/
theorem sameResults_fail (s t : State) (k : ErrorKind) : SameResults (s.fail k) (t.fail k) := ⟨rfl, rfl, rfl⟩

/-- A write-back overwrites every result (R83, R84). -/
theorem sameResults_writeBack (s t : State) (r : Result) : SameResults (s.writeBack r) (t.writeBack r) := by
  cases r with
  | ok out => exact ⟨rfl, rfl, rfl⟩
  | err k => exact sameResults_fail s t k

/-- Where every input byte is written, the input is those bytes and no free one (R80, R174). -/
theorem State.input_eq_of_written (hlen : s.ilen = t.ilen)
    (hread : ∀ k, k < s.ilen → ∃ v, s.ibuf.read k = some v ∧ t.ibuf.read k = some v) : s.input = t.input := by
  unfold State.input
  rw [← hlen]
  refine List.map_congr_left fun k hk => ?_
  obtain ⟨v, hs, ht⟩ := hread k (List.mem_range.mp hk)
  rw [Memory.readOrFree_of_read hs, Memory.readOrFree_of_read ht]

/-- The shared command step makes its results of the parameters, `ILEN` and the input (R80). -/
theorem runCommand_sameResults (f : List Byte → Result) (need : List Byte → Nat) (hcfg : s.cfg = t.cfg)
    (hlen : s.ilen = t.ilen) (hin : s.input = t.input) :
    ∃ s' t', runCommand f need s = .next s' ∧ runCommand f need t = .next t' ∧ SameResults s' t' := by
  unfold runCommand
  rw [hcfg, hlen, hin]
  split
  · exact ⟨_, _, rfl, rfl, sameResults_fail s t _⟩
  · exact ⟨_, _, rfl, rfl, sameResults_writeBack _ _ _⟩

end Sys2Proof.Machine

namespace Sys2Proof

open Machine

/-- Settles O16: written input bytes make the inputs equal, and the shared command step looks at nothing else. -/
theorem commandIsPure : Obligations.CommandIsPure := by
  unfold Obligations.CommandIsPure
  intro i s s' hcfg hlen hread
  obtain ⟨t, t', ht, ht', hstatus, holen, hobuf⟩ :=
    runCommand_sameResults (functionOf i s.cfg.alphabets) (accNeedOf i s.cfg.alphabets) hcfg hlen
      (State.input_eq_of_written hlen hread)
  refine ⟨t, t', (exec_eq_runCommand i s).trans ht, ?_, hstatus, holen, fun j => congrArg (·.read j) hobuf⟩
  rw [exec_eq_runCommand, ← hcfg, ht']

end Sys2Proof

/-! The encoding (R60 to R64, R81): a word is its two fields, so the decoder and the encoder agree, and a word whose
tag is no radix is no command. -/

namespace Sys2Proof

variable {w : CmdWord} {i : Instr}

/-! ## A word is its two fields -/

theorem dirField_append_fmtField (w : CmdWord) : (dirField w ++ fmtField w : BitVec 8) = w := by
  have hjoin : (dirField w ++ fmtField w : BitVec 8) = w.extractLsb' 0 8 :=
    BitVec.extractLsb'_append_extractLsb'_eq_extractLsb' rfl
  rw [hjoin, BitVec.extractLsb'_eq_self]

theorem word_ext {v : CmdWord} (hdir : dirField w = dirField v) (hfmt : fmtField w = fmtField v) : w = v := by
  rw [← dirField_append_fmtField w, hdir, hfmt, dirField_append_fmtField]

/-- The laws of the twelve encoded words, as one fact about a command (R61, R62, R63). -/
theorem encodedFields (i : Instr) : Laws.EncodedFields.Statement i := by
  cases i with
  | enc16 => exact Laws.EncodedFields.enc16
  | enc32 => exact Laws.EncodedFields.enc32
  | enc58 => exact Laws.EncodedFields.enc58
  | enc62 => exact Laws.EncodedFields.enc62
  | enc64 => exact Laws.EncodedFields.enc64
  | enc85 => exact Laws.EncodedFields.enc85
  | dec16 => exact Laws.EncodedFields.dec16
  | dec32 => exact Laws.EncodedFields.dec32
  | dec58 => exact Laws.EncodedFields.dec58
  | dec62 => exact Laws.EncodedFields.dec62
  | dec64 => exact Laws.EncodedFields.dec64
  | dec85 => exact Laws.EncodedFields.dec85

/-- A word is a command's when its direction and its tag are the command's (R61, R62). -/
theorem eq_encode_iff : w = encode i ↔ dirField w = BitVec.ofBool i.decodes ∧ (fmtField w).toNat = i.radix := by
  obtain ⟨-, hdir, hfmt⟩ := encodedFields i
  constructor
  · rintro rfl
    exact ⟨hdir, hfmt⟩
  · rintro ⟨hd, hf⟩
    exact word_ext (hd.trans hdir.symm) (BitVec.eq_of_toNat_eq (hf.trans hfmt.symm))

/-! ## What the decoder reads from the fields -/

/-- The row of R63 with a direction and a tag is the command that has both. -/
theorem commandOf_eq_some {decodes : Bool} {tag : Nat} :
    commandOf decodes tag = some i ↔ decodes = i.decodes ∧ tag = i.radix := by
  constructor
  · intro h
    unfold commandOf at h
    split at h
    case h_7 => cases h
    all_goals
      obtain rfl := Option.some.inj h
      cases decodes <;> exact ⟨rfl, rfl⟩
  · rintro ⟨rfl, rfl⟩
    cases i <;> rfl

theorem decode_eq_ok_iff_commandOf :
    decode w = .ok i ↔ commandOf (decide (dirField w = 1#1)) (fmtField w).toNat = some i := by
  unfold decode
  split <;> simp [*]

/-- `DIR` as a truth value and as a bit (R61). -/
theorem bit_eq_one_iff (d : BitVec 1) (b : Bool) : decide (d = 1#1) = b ↔ d = BitVec.ofBool b := by
  revert d b
  decide

theorem decode_eq_ok_iff : decode w = .ok i ↔ w = encode i := by
  rw [decode_eq_ok_iff_commandOf, commandOf_eq_some, bit_eq_one_iff, eq_encode_iff]

/-- The tag of a command's word is a radix (R62). -/
theorem fmtField_mem_of_decode (h : decode w = .ok i) : (fmtField w).toNat ∈ RADIXES := by
  obtain ⟨-, htag⟩ := eq_encode_iff.mp (decode_eq_ok_iff.mp h)
  obtain ⟨hlegal, -⟩ := encodedFields i
  exact htag ▸ List.contains_iff_mem.mp hlegal

/-- Settles O2: the decoder looks up the command with the word's direction and tag, and these two make the word. -/
theorem decodeInvertsEncode : Obligations.DecodeInvertsEncode := by
  unfold Obligations.DecodeInvertsEncode
  intro w i
  exact decode_eq_ok_iff

/-- Settles O1: each of the twelve words is the encoding of the command its row names. -/
theorem twelveWordsDecode : Obligations.TwelveWordsDecode := by
  unfold Obligations.TwelveWordsDecode
  simp only [decode_eq_ok_iff]
  decide

end Sys2Proof

namespace Sys2Proof.Machine

/-! ## An illegal word (R64, R81) -/

theorem step_writeCmd_illegal {s : State} {w : CmdWord} {rest : List HostMove} (h : s.host = .writeCmd w :: rest)
    (hw : (fmtField w).toNat ∉ RADIXES) :
    step s = .next (((s.setHost rest).setCmd w).fail .unsupportedFormatError) := by
  rw [step_cons h]
  rcases writeCmd_cases w (s.setHost rest) with ⟨i, hi, -⟩ | ⟨e, -, hfail⟩
  · exact absurd (fmtField_mem_of_decode hi) hw
  · exact hfail

/-- The tag of a word given by its number is the low seven bits (R62). -/
theorem toNat_fmtField_ofNat (n : Nat) : (fmtField (BitVec.ofNat 8 n)).toNat = n % 128 := by
  simp [fmtField]

/-- Of the 128 tags six are radices (R62). -/
theorem illegalTags_length : ((List.range 128).filter fun n => !RADIXES.contains (n % 128)).length = 122 := by
  rfl

/-- Each of the 122 illegal tags stands in two words, one for each direction (R64). -/
theorem illegalWords_length :
    ((List.range 256).filter fun n => !RADIXES.contains (fmtField (BitVec.ofNat 8 n)).toNat).length = 244 := by
  have hpair : List.range 256 = List.range 128 ++ (List.range 128).map (128 + ·) :=
    List.range_add (n := 128) (m := 128)
  simp only [toNat_fmtField_ofNat, hpair, List.filter_append, List.filter_map, List.length_append, List.length_map,
    Function.comp_def, Nat.add_mod_left, illegalTags_length]

end Sys2Proof.Machine

namespace Sys2Proof

open Machine

/-- Settles O3: a word whose tag is no radix is not decoded, so its write stores it and fails (R81). -/
theorem illegalWordFailsUnsupported : Obligations.IllegalWordFailsUnsupported := by
  unfold Obligations.IllegalWordFailsUnsupported
  refine ⟨illegalWords_length, fun s w rest h hw => ?_⟩
  exact ⟨_, step_writeCmd_illegal h hw, ⟨rfl, rfl⟩, State.fail_unspecified _ _, rfl, rfl, rfl, rfl, rfl, rfl⟩

end Sys2Proof

/-! The two script lines that fill the input (R52, R68): `MOVE`, one step, and `LOAD`, a run of one step per byte and
one for `ILEN`. -/

namespace Sys2Proof.Machine

variable {s : State} {rest : List HostMove}

/-! ## `MOVE` -/

theorem step_move (h : s.host = .move :: rest) (hcap : admits s.cfg.ibufCap s.olen = true)
    (hlen : lengthFits s.cfg.lenW s.olen = true) :
    step s = .next (((List.range s.olen).foldl copyByte (s.setHost rest)).setIlen s.olen) := by
  obtain ⟨hcfg, -⟩ := copyBytes_frame (s.setHost rest) (List.range s.olen)
  rw [step_cons h]
  exact moveResult_eq_next.mpr ⟨hcap, writeIlen_eq_next.mpr ⟨hcfg ▸ hlen, rfl⟩⟩

theorem step_move_refused (h : s.host = .move :: rest) (hcap : admits s.cfg.ibufCap s.olen = false) :
    step s = .refused (.moveDoesNotFit s.olen) := by
  rw [step_cons h]
  simp [hostMove, moveResult, hcap]

/-! ## `LOAD` -/

/-- The buffer after the bytes `data` are written from index `i` on, in rising order (R68). -/
def Memory.writeAll (m : Memory) (i : Nat) : List Byte → Memory
  | [] => m
  | v :: vs => (m.write i v).writeAll (i + 1) vs

theorem Memory.read_writeAll_outside (m : Memory) {i j : Nat} {data : List Byte} (h : j < i ∨ i + data.length ≤ j) :
    (m.writeAll i data).read j = m.read j := by
  induction data generalizing m i with
  | nil => rfl
  | cons v vs ih =>
    rw [List.length_cons] at h
    calc (m.writeAll i (v :: vs)).read j = (m.write i v).read j := ih _ (by omega)
      _ = m.read j := Memory.read_write_other m v (by omega)

theorem Memory.read_writeAll_inside (m : Memory) (i : Nat) {j : Nat} {data : List Byte} (h : j < data.length) :
    (m.writeAll i data).read (i + j) = data[j]? := by
  induction data generalizing m i j with
  | nil => simp at h
  | cons v vs ih =>
    cases j with
    | zero =>
      calc (m.writeAll i (v :: vs)).read i = (m.write i v).read i :=
            Memory.read_writeAll_outside _ (.inl (Nat.lt_succ_self i))
        _ = some v := Memory.read_write_same m i v
    | succ k =>
      rw [Nat.add_comm k, ← Nat.add_assoc, Nat.add_comm 1 k, List.getElem?_cons_succ]
      exact ih _ _ (Nat.lt_of_succ_lt_succ h)

/-- The byte writes of `LOAD` run one step each. -/
theorem run_loadMoves {i : Nat} {data : List Byte} (h : s.host = loadMoves i data ++ rest)
    (hcap : admits s.cfg.ibufCap (i + data.length) = true) :
    Sys2Proof.core.run data.length s = .next { s with host := rest, ibuf := s.ibuf.writeAll i data } := by
  induction data generalizing s i with
  | nil =>
    obtain rfl : s.host = rest := h
    rfl
  | cons v vs ih =>
    rw [List.length_cons] at hcap
    have hstep : step s = .next ((s.setHost (loadMoves (i + 1) vs ++ rest)).setIbuf i v) :=
      step_writeIbuf h (hasStorage_of_lt hcap (by omega))
    calc Sys2Proof.core.run (vs.length + 1) s
        = Sys2Proof.core.run vs.length ((s.setHost (loadMoves (i + 1) vs ++ rest)).setIbuf i v) :=
          run_succ_next Sys2Proof.core _ hstep
      _ = .next { s with host := rest, ibuf := s.ibuf.writeAll i (v :: vs) } :=
          ih (i := i + 1) rfl (by rwa [Nat.add_assoc, Nat.add_comm 1])

/-- A `LOAD` line runs to the state with its bytes in `IBUF` and their number in `ILEN`. -/
theorem run_load {data : List Byte} (h : s.host = (ScriptLine.load data).moves ++ rest)
    (hcap : admits s.cfg.ibufCap data.length = true) (hlen : lengthFits s.cfg.lenW data.length = true) :
    Sys2Proof.core.run (data.length + 1) s =
      .next { s with host := rest, ilen := data.length, ibuf := s.ibuf.writeAll 0 data } := by
  have hbytes : s.host = loadMoves 0 data ++ (.writeIlen data.length :: rest) := by
    simpa [ScriptLine.moves] using h
  have hrun := run_loadMoves hbytes (by rwa [Nat.zero_add])
  exact (run_add Sys2Proof.core _ hrun).trans (step_writeIlen (s := { s with host := _, ibuf := _ }) rfl hlen)

end Sys2Proof.Machine

namespace Sys2Proof

open Machine

/-- Settles O41: the copied bytes leave every other field alone, and the `ILEN` write changes `ILEN` only. -/
theorem moveCopiesResult : Obligations.MoveCopiesResult := by
  unfold Obligations.MoveCopiesResult
  intro s out rest h holen hout
  refine ⟨fun hcap hlen => ?_, step_move_refused h⟩
  obtain ⟨hcopied, habove⟩ := copyBytes_read (s.setHost rest) out hout _ le_rfl
  obtain ⟨hcfg, hcmd, -, holen', hstatus, hobuf, hhost⟩ := copyBytes_frame (s.setHost rest) (List.range s.olen)
  rw [← holen] at hcopied habove ⊢
  exact ⟨_, step_move h hcap hlen, rfl, hcopied, habove, hhost, hcfg, hcmd, hstatus, holen', hobuf⟩

/-- Settles O42: the run of `LOAD`'s moves ends with the bytes written from index 0 on. -/
theorem loadFillsInput : Obligations.LoadFillsInput := by
  unfold Obligations.LoadFillsInput
  intro s data rest h hcap hlen
  refine ⟨_, run_load h hcap hlen, rfl, fun j hj => ?_, fun j hj => ?_, rfl⟩
  · simpa using s.ibuf.read_writeAll_inside 0 hj
  · exact s.ibuf.read_writeAll_outside (.inr (by omega))

end Sys2Proof

/-! The dispatch (R80 to R89): the state that each end of the command step answers, and from these what a command's
success, its failures and its frame are. -/

namespace Sys2Proof.Machine

variable {s t : State} {i : Instr} {out : List Byte} {k : ErrorKind}

/-! ## Capacities and error codes -/

theorem admits_some_of_lt {c n : Nat} (h : c < n) : admits (some c) n = false := decide_eq_false (Nat.not_le.mpr h)

theorem admits_zero (cap : Option Nat) : admits cap 0 = true := by
  cases cap with
  | none => rfl
  | some c => exact decide_eq_true (Nat.zero_le c)

theorem ErrorKind.eq_of_code_eq {k₁ k₂ : ErrorKind} (h : k₁.code = k₂.code) : k₁ = k₂ := by
  revert h
  cases k₁ <;> cases k₂ <;> decide

theorem statusOk_ne_code (k : ErrorKind) : statusOk ≠ k.code := by cases k <;> decide

/-- `STATUS.ERR` is bits 2 to 0; the bits above are zero in every code (R14, R84). -/
theorem ErrorKind.code_highBits (k : ErrorKind) : k.code.extractLsb' 3 5 = 0#5 := by cases k <;> decide

/-! ## The kinds of error that the functions themselves report

Only the command step around a function tests capacities (R82, R85, R86). -/

theorem dec16_errorKind {a : Alphabets} {T : List Byte} (h : dec16 a T = .err k) :
    k = .lengthError ∨ k = .invalidCharacterError := by
  unfold dec16 at h
  split at h
  · exact .inl (Result.err.inj h).symm
  · split at h
    · cases h
    · exact .inr (Result.err.inj h).symm

theorem decGroup_errorKind {b G : Nat} {table T : List Byte} (h : decGroup b G table T = .err k) :
    k = .invalidCharacterError := by
  unfold decGroup at h
  split at h
  · split at h
    · cases h
    · exact (Result.err.inj h).symm
  · exact (Result.err.inj h).symm

theorem dec58_errorKind {a : Alphabets} {T : List Byte} (h : dec58 a T = .err k) : k = .invalidCharacterError := by
  unfold dec58 at h
  split at h
  · cases h
  · exact (Result.err.inj h).symm

theorem dec62_errorKind {a : Alphabets} {T : List Byte} (h : dec62 a T = .err k) : k = .invalidCharacterError := by
  unfold dec62 at h
  split at h
  · cases h
  · exact (Result.err.inj h).symm

theorem dec85_errorKind {a : Alphabets} {T : List Byte} (h : dec85 a T = .err k) :
    k = .lengthError ∨ k = .invalidCharacterError := by
  unfold dec85 at h
  split at h
  · exact .inl (Result.err.inj h).symm
  · split at h
    · cases h
    · exact .inr (Result.err.inj h).symm

/-- An encoder has no error of its own, a decoder those of a bad length and of a bad character (R152, R153). -/
theorem functionOf_errorKind {a : Alphabets} {In : List Byte} (h : functionOf i a In = .err k) :
    k = .lengthError ∨ k = .invalidCharacterError := by
  cases i with
  | enc16 | enc32 | enc58 | enc62 | enc64 | enc85 => cases h
  | dec16 => exact dec16_errorKind h
  | dec32 | dec64 => exact .inr (decGroup_errorKind h)
  | dec58 => exact .inr (dec58_errorKind h)
  | dec62 => exact .inr (dec62_errorKind h)
  | dec85 => exact dec85_errorKind h

theorem groupDigits_nil {b : Nat} (hb : 0 < b) : groupDigits b [] = [] := by
  have hcount : ceilDiv 0 b = 0 := Nat.div_eq_of_lt (by omega)
  simp [groupDigits, hcount]

theorem padded_nil (G : Nat) : padded G [] = [] := by simp [padded]

/-- No function makes a symbol, a digit or a pad from no input (R83). -/
theorem functionOf_nil (i : Instr) (a : Alphabets) : functionOf i a [] = .ok [] := by
  cases i with
  | enc32 | enc64 => simp [functionOf, enc32, enc64, groupDigits_nil, padded_nil, symbols]
  | enc16 | enc58 | enc62 | enc85 => rfl
  | dec16 | dec32 | dec58 | dec62 | dec64 | dec85 => rfl

/-! ## Results and accumulators that do not fit -/

/-- Only the Big-Integer commands have an accumulator (R86). -/
theorem mem_bigInteger_of_accNeedOf_ne_zero {a : Alphabets} {In : List Byte} (h : accNeedOf i a In ≠ 0) :
    i ∈ [Instr.enc58, .enc62, .dec58, .dec62] := by
  cases i with
  | enc58 | enc62 | dec58 | dec62 => decide
  | enc16 | enc32 | enc64 | enc85 | dec16 | dec32 | dec64 | dec85 => exact absurd rfl h

/-- The command step tests `acc_need` of every command; for those without an accumulator it is 0 and always fits. -/
theorem capacityCause_iff {cfg : Config} {In : List Byte} (hf : functionOf i cfg.alphabets In = .ok out) :
    CapacityCause i cfg In ↔
      admits cfg.accCap (accNeedOf i cfg.alphabets In) = false ∨ admits cfg.obufCap out.length = false := by
  constructor
  · rintro ⟨out', hf', hcap⟩
    obtain rfl := Result.ok.inj (hf'.symm.trans hf)
    exact hcap.symm.imp_left And.right
  · rintro (hacc | hobuf)
    · have hneed : accNeedOf i cfg.alphabets In ≠ 0 := fun hzero => by simp [hzero, admits_zero] at hacc
      exact ⟨out, hf, .inr ⟨mem_bigInteger_of_accNeedOf_ne_zero hneed, hacc⟩⟩
    · exact ⟨out, hf, .inl hobuf⟩

/-! ## The state each end of a command answers -/

/-- The announced input is not in the buffer (R82). -/
theorem exec_of_inputTooLong (i : Instr) (hin : admits s.cfg.ibufCap s.ilen = false) :
    exec i s = .next (s.fail .resourceExhaustedError) := by
  rw [exec_eq_runCommand, runCommand, if_pos hin]

/-- The input is in the buffer, so the function's result is held against the capacities and written back (R80). -/
theorem exec_of_inputFits (i : Instr) (hin : admits s.cfg.ibufCap s.ilen = true) :
    exec i s = .next (s.tookInput.writeBack (resultWithin s.cfg (functionOf i s.cfg.alphabets s.input)
      (accNeedOf i s.cfg.alphabets s.input))) := by
  rw [exec_eq_runCommand, runCommand, if_neg (by simp [hin])]

/-- The function's own error (R84). -/
theorem exec_of_err (hin : admits s.cfg.ibufCap s.ilen = true)
    (hf : functionOf i s.cfg.alphabets s.input = .err k) : exec i s = .next (s.tookInput.fail k) := by
  rw [exec_of_inputFits i hin, hf]
  rfl

/-- A result within the capacities (R83). -/
theorem exec_of_ok (hf : functionOf i s.cfg.alphabets s.input = .ok out)
    (hfits : s.Fits (accNeedOf i s.cfg.alphabets s.input) out.length) : exec i s = .next (s.tookInput.succeed out) := by
  obtain ⟨hin, hacc, hobuf⟩ := hfits
  rw [exec_of_inputFits i hin, hf]
  simp [resultWithin, hacc, hobuf, State.writeBack]

/-- A result or an accumulator over its capacity (R85, R86). -/
theorem exec_of_capacityCause (hin : admits s.cfg.ibufCap s.ilen = true) (h : CapacityCause i s.cfg s.input) :
    exec i s = .next (s.tookInput.fail .resourceExhaustedError) := by
  have ⟨out, hf, _⟩ := h
  rw [exec_of_inputFits i hin, hf]
  rcases (capacityCause_iff hf).mp h with hacc | hobuf
  · simp [resultWithin, hacc, State.writeBack]
  · simp [resultWithin, hobuf, State.writeBack]

/-- Every command counts some draws and then takes an error or succeeds (R80, R89). -/
theorem exec_fails_or_succeeds (i : Instr) (s : State) :
    ∃ n, (∃ k, exec i s = .next ((s.drew n).fail k)) ∨ ∃ out, exec i s = .next ((s.drew n).succeed out) := by
  rcases exec_cases i s with ⟨-, he⟩ | ⟨-, ⟨k, -, he⟩ | ⟨out, -, ⟨-, he⟩ | ⟨-, he⟩⟩⟩
  · exact ⟨0, .inl ⟨_, he⟩⟩
  · exact ⟨s.ilen, .inl ⟨k, he⟩⟩
  · exact ⟨s.ilen, .inl ⟨_, he⟩⟩
  · exact ⟨s.ilen, .inr ⟨out, he⟩⟩

theorem exec_terminates (i : Instr) (s : State) : ∃ t, exec i s = .next t := by
  obtain ⟨n, ⟨k, he⟩ | ⟨out, he⟩⟩ := exec_fails_or_succeeds i s
  · exact ⟨_, he⟩
  · exact ⟨_, he⟩

/-- A command that leaves an error in `STATUS` ended in a failure (R84). -/
theorem exec_failed (h : exec i s = .next t) (hstatus : t.status ≠ statusOk) : ∃ n k, t = (s.drew n).fail k := by
  obtain ⟨n, ⟨k, he⟩ | ⟨out, he⟩⟩ := exec_fails_or_succeeds i s
  · exact ⟨n, k, Host.Outcome.next.inj (h.symm.trans he)⟩
  · obtain rfl := Host.Outcome.next.inj (h.symm.trans he)
    exact absurd rfl hstatus

/-- With the input in the buffer, only a capacity makes a command report `ResourceExhaustedError` (R85, R86, R154). -/
theorem capacityCause_of_exec (hin : admits s.cfg.ibufCap s.ilen = true) (h : exec i s = .next t)
    (hstatus : t.status = ErrorKind.resourceExhaustedError.code) : CapacityCause i s.cfg s.input := by
  rcases exec_cases i s with ⟨hover, -⟩ | ⟨-, ⟨k, hf, he⟩ | ⟨out, hf, ⟨hcap, -⟩ | ⟨-, he⟩⟩⟩
  · cases hover.symm.trans hin
  · obtain rfl := Host.Outcome.next.inj (h.symm.trans he)
    obtain rfl := ErrorKind.eq_of_code_eq hstatus
    rcases functionOf_errorKind hf with hk | hk <;> cases hk
  · exact (capacityCause_iff hf).mpr hcap
  · obtain rfl := Host.Outcome.next.inj (h.symm.trans he)
    exact absurd hstatus (statusOk_ne_code _)

/-! ## The write of `CMD` and the input -/

theorem writeCmd_of_decode {w : CmdWord} (s : State) (h : decode w = .ok i) : writeCmd w s = exec i (s.setCmd w) := by
  simp [writeCmd, h]

theorem Memory.readOrFree_of_unspecified {m : Memory} {a : Nat} (h : m.read a = none) (n : Nat) :
    m.readOrFree n a = Config.freeByte n := by simp [Memory.readOrFree, h]

theorem State.input_getElem?_of_lt {j : Nat} (h : j < s.ilen) :
    s.input[j]? = some (s.ibuf.readOrFree (s.draws + j) j) := by rw [State.input_getElem?, if_pos h]

end Sys2Proof.Machine

namespace Sys2Proof

open Machine

/-- Settles O6: the input length is tested before the input is taken; past that test only a capacity cause is left. -/
theorem inputOverCapacityFails : Obligations.InputOverCapacityFails := by
  unfold Obligations.InputOverCapacityFails
  refine ⟨fun i s c hcap hlt => ?_, fun i s hcap => ?_⟩
  · have hin : admits s.cfg.ibufCap s.ilen = false := hcap ▸ admits_some_of_lt hlt
    exact ⟨_, exec_of_inputTooLong i hin, ⟨rfl, rfl⟩, State.fail_unspecified _ _, rfl⟩
  · have hin : admits s.cfg.ibufCap s.ilen = true := hcap ▸ rfl
    obtain ⟨t, ht⟩ := exec_terminates i s
    exact ⟨t, ht, capacityCause_of_exec hin ht⟩

/-- Settles O7: a result within the capacities is what the command step writes back. -/
theorem successWritesResult : Obligations.SuccessWritesResult := by
  unfold Obligations.SuccessWritesResult
  refine ⟨functionOf_nil, fun i s out hf hfits => ?_⟩
  exact ⟨_, exec_of_ok hf hfits, State.succeed_expectOk _ out, State.succeed_unspecified _ out⟩

/-- Settles O8: a nonzero `STATUS` is the code of a kind, left by the one operation that takes an error. -/
theorem failureWritesError : Obligations.FailureWritesError := by
  unfold Obligations.FailureWritesError
  refine ⟨fun i s k hin hf => ?_, fun i s t h hstatus => ?_⟩
  · exact ⟨_, exec_of_err hin hf, ⟨rfl, rfl⟩, State.fail_unspecified _ k⟩
  · obtain ⟨n, k, rfl⟩ := exec_failed h hstatus
    exact ⟨rfl, State.fail_unspecified _ k, k.code_highBits, fun j => exec_terminates j _⟩

/-- Settles O9: the capacities are tested on the result of a function that succeeded. -/
theorem capacityExceededFails : Obligations.CapacityExceededFails := by
  unfold Obligations.CapacityExceededFails
  intro i s hin hcap
  exact ⟨_, exec_of_capacityCause hin hcap, ⟨rfl, rfl⟩, State.fail_unspecified _ _⟩

/-- Settles O15: counting draws, failing and succeeding each leave all of the frame alone. -/
theorem commandFrame : Obligations.CommandFrame := by
  unfold Obligations.CommandFrame
  intro i s
  obtain ⟨n, ⟨k, he⟩ | ⟨out, he⟩⟩ := exec_fails_or_succeeds i s
  · exact ⟨_, he, rfl, rfl, rfl, rfl, rfl, rfl, fun _ => rfl, State.fail_unspecified _ k⟩
  · exact ⟨_, he, rfl, rfl, rfl, rfl, rfl, rfl, fun _ => rfl, State.succeed_unspecified _ out⟩

/-- Settles O4: the step takes the move off, and the `CMD` write runs the word it stored. -/
theorem stepRunsDecodedCommand : Obligations.StepRunsDecodedCommand := by
  unfold Obligations.StepRunsDecodedCommand
  intro s w rest i h hw
  exact (step_cons h).trans (writeCmd_of_decode (s.setHost rest) hw)

/-- Settles O5: every end of the command step is a next state. -/
theorem everyCommandTerminates : Obligations.EveryCommandTerminates := by
  unfold Obligations.EveryCommandTerminates
  exact exec_terminates

/-- Settles O17: each element of the input is one read of `IBUF`, of a written byte or of a free one. -/
theorem inputIsBufferPrefix : Obligations.InputIsBufferPrefix := by
  unfold Obligations.InputIsBufferPrefix
  intro s
  refine ⟨s.input_length, fun j v hj hread => ?_, fun j hj hread => ?_⟩
  · rw [State.input_getElem?_of_lt hj, Memory.readOrFree_of_read hread]
  · rw [State.input_getElem?_of_lt hj, Memory.readOrFree_of_unspecified hread]

end Sys2Proof

/-! A bit stream cut into fields (R91, R94): the number in a run of stream positions, most significant first. Encoding,
decoding and both datapaths of the Fixed-Group Codec cut one stream into fields of some width. -/

namespace Sys2Proof.Machine

/-- The number in the `n` positions of the stream `f` from `p` on, most significant first (R43). -/
def bitField (f : Nat → Nat) (p n : Nat) : Nat := bitsValue (fun t => f (p + t)) n

variable {f g : Nat → Nat} {p q m n v b k : Nat}

@[simp] theorem bitField_zero (f : Nat → Nat) (p : Nat) : bitField f p 0 = 0 := rfl

theorem bitField_succ (f : Nat → Nat) (p n : Nat) : bitField f p (n + 1) = 2 * bitField f p n + f (p + n) := rfl

theorem bitField_add (f : Nat → Nat) (p m n : Nat) :
    bitField f p (m + n) = bitField f p m * 2 ^ n + bitField f (p + m) n := by
  induction n with
  | zero => simp
  | succ n ih => rw [← Nat.add_assoc, bitField_succ, ih, bitField_succ, Nat.add_assoc p m n]; ring

theorem bitField_congr (h : ∀ t, t < n → f (p + t) = g (q + t)) : bitField f p n = bitField g q n := by
  induction n with
  | zero => rfl
  | succ n ih => rw [bitField_succ, bitField_succ, ih fun t ht => h t (by omega), h n (by omega)]

theorem bitField_eq_zero (h : ∀ t, t < n → f (p + t) = 0) : bitField f p n = 0 := by
  induction n with
  | zero => rfl
  | succ n ih => rw [bitField_succ, ih fun t ht => h t (by omega), h n (by omega)]

theorem bitField_lt (hf : ∀ i, f i ≤ 1) (p n : Nat) : bitField f p n < 2 ^ n := bitsValue_lt _ (fun _ => hf _) n

/-- The leading positions of a field are its quotient, the trailing ones its remainder. -/
theorem bitField_div (hf : ∀ i, f i ≤ 1) (p m n : Nat) : bitField f p (m + n) / 2 ^ n = bitField f p m := by
  rw [bitField_add, Nat.add_comm, Nat.add_mul_div_right _ _ (Nat.two_pow_pos n), Nat.div_eq_of_lt (bitField_lt hf _ n),
    Nat.zero_add]

theorem bitField_mod (hf : ∀ i, f i ≤ 1) (p m n : Nat) : bitField f p (m + n) % 2 ^ n = bitField f (p + m) n := by
  rw [bitField_add, Nat.mul_add_mod_of_lt (bitField_lt hf _ n)]

theorem bitField_testBit (hf : ∀ i, f i ≤ 1) (p : Nat) {u : Nat} (h : u < n) :
    (bitField f p n).testBit (n - 1 - u) = decide (f (p + u) = 1) := bitsValue_testBit _ (fun _ => hf _) n u h

theorem shiftRight_and_one_le (v i : Nat) : (v >>> i) &&& 1 ≤ 1 := Nat.and_le_right

theorem shiftRight_and_one_eq_one (v i : Nat) : decide ((v >>> i) &&& 1 = 1) = v.testBit i := by
  rw [Nat.and_one_is_mod, Nat.shiftRight_eq_div_pow, Nat.testBit_eq_decide_div_mod_eq]

/-- A number below `2^n` is the field of its own `n` bits. -/
theorem bitField_eq_of_bits (hf : ∀ i, f i ≤ 1) (hv : v < 2 ^ n)
    (h : ∀ t, t < n → f (p + t) = (v >>> (n - 1 - t)) &&& 1) : bitField f p n = v := by
  refine Nat.eq_of_testBit_eq fun i => ?_
  by_cases hi : i < n
  · have hu : n - 1 - (n - 1 - i) = i := by omega
    have hbit := bitField_testBit hf p (n := n) (u := n - 1 - i) (by omega)
    rw [h _ (by omega), hu, shiftRight_and_one_eq_one] at hbit
    exact hbit
  · have hpow : 2 ^ n ≤ 2 ^ i := Nat.pow_le_pow_right (by decide) (by omega)
    rw [Nat.testBit_lt_two_pow (by have := bitField_lt hf p n; omega), Nat.testBit_lt_two_pow (by omega)]

/-! ## The two streams -/

theorem digitBit_le (b : Nat) (D : List Nat) (i : Nat) : digitBit b D i ≤ 1 := shiftRight_and_one_le _ _

theorem payloadBit_of_lt {P : List Byte} {u : Nat} (hk : k < P.length) (hu : u < 8) :
    payloadBit P (8 * k + u) = (P[k].toNat >>> (7 - u)) &&& 1 := by
  have hdiv : (8 * k + u) / 8 = k := by omega
  have hmod : (8 * k + u) % 8 = u := by omega
  simp [payloadBit, hdiv, hmod, hk, show 8 * k + u < 8 * P.length by omega]

theorem payloadBit_of_le {P : List Byte} (h : 8 * P.length ≤ p) : payloadBit P p = 0 := if_neg (by omega)

theorem digitBit_of_lt {D : List Nat} {u : Nat} (hk : k < D.length) (hu : u < b) :
    digitBit b D (k * b + u) = (D[k] >>> (b - 1 - u)) &&& 1 := by
  have hdiv : (k * b + u) / b = k := by
    rw [Nat.mul_comm, Nat.mul_add_div (by omega), Nat.div_eq_of_lt hu, Nat.add_zero]
  have hmod : (k * b + u) % b = u := Nat.mul_add_mod_of_lt hu
  simp [digitBit, hdiv, hmod, hk]

/-- Eight positions of a payload are one byte (R91). -/
theorem bitField_payloadBit {P : List Byte} (hk : k < P.length) : bitField (payloadBit P) (8 * k) 8 = P[k].toNat :=
  bitField_eq_of_bits (payloadBit_le P) P[k].isLt fun _ hu => payloadBit_of_lt hk hu

/-- `b` positions of a digit sequence are one digit (R94). -/
theorem bitField_digitBit {D : List Nat} (hk : k < D.length) (hd : D[k] < 2 ^ b) :
    bitField (digitBit b D) (k * b) b = D[k] :=
  bitField_eq_of_bits (digitBit_le b D) hd fun _ hu => digitBit_of_lt hk hu

theorem digitAt_eq_bitField (b : Nat) (P : List Byte) (k : Nat) : digitAt b P k = bitField (payloadBit P) (k * b) b :=
  digitAt_eq b P k

theorem byteAt_eq_bitField (b : Nat) (D : List Nat) (k : Nat) :
    byteAt b D k = BitVec.ofNat 8 (bitField (digitBit b D) (8 * k) 8) :=
  congrArg (BitVec.ofNat 8) (bitsValue_eq_sum (fun u => digitBit b D (8 * k + u)) 8)

end Sys2Proof.Machine

/-! Padded texts (R92, R93): the data symbols and then the pad symbols of a text, and what a decoder answers to it. -/

namespace Sys2Proof.Machine

variable {G b p : Nat} {table T : List Byte} {D : List Nat}

/-! ## The number of pad symbols (R92) -/

theorem length_padded (G : Nat) (S : List Byte) : (padded G S).length = S.length + (G - S.length % G) % G := by
  simp [padded]

/-- The pad symbols that complete the last group start no new one. -/
theorem lastGroup_add_pads (hG : 0 < G) (n : Nat) : (n + (G - n % G) % G - 1) / G = (n - 1) / G := by
  have hn := Nat.div_add_mod n G
  have hlt := Nat.mod_lt n hG
  by_cases hzero : n % G = 0
  · simp [hzero]
  · rw [Nat.mod_eq_of_lt (by omega : G - n % G < G)]
    have hend : n + (G - n % G) - 1 = G * (n / G) + (G - 1) := by omega
    have hlast : n - 1 = G * (n / G) + (n % G - 1) := by omega
    rw [hend, hlast, Nat.mul_add_div hG, Nat.mul_add_div hG, Nat.div_eq_of_lt (by omega : G - 1 < G),
      Nat.div_eq_of_lt (by omega : n % G - 1 < G)]

theorem finalGroupStart_le (hG : 0 < G) (n : Nat) : G * ((n + (G - n % G) % G - 1) / G) ≤ n := by
  rw [lastGroup_add_pads hG]
  exact (Nat.mul_div_le _ _).trans (Nat.sub_le _ _)

/-! ## Data symbols and pad symbols -/

theorem symbol_ne_pad (hpad : PAD ∉ table) {d : Nat} (hd : d < table.length) : symbol table d ≠ PAD :=
  fun h => hpad (h ▸ List.mem_of_getElem? (getElem?_symbol hd))

theorem dataCount_append_pads (hpad : PAD ∉ table) (hD : ∀ d ∈ D, d < table.length) (p : Nat) :
    dataCount (D.map (symbol table) ++ List.replicate p PAD) = D.length := by
  induction D with
  | nil => cases p <;> simp [dataCount, List.replicate_succ, List.findIdx_cons]
  | cons d D ih =>
    rw [List.forall_mem_cons] at hD
    obtain ⟨hd, hD⟩ := hD
    have hne : (symbol table d == PAD) = false := beq_false_of_ne (symbol_ne_pad hpad hd)
    simpa [dataCount, List.findIdx_cons, hne] using ih hD

theorem filter_data_append_pads (hpad : PAD ∉ table) (hD : ∀ d ∈ D, d < table.length) (p : Nat) :
    (D.map (symbol table) ++ List.replicate p PAD).filter (· != PAD) = D.map (symbol table) := by
  have hdata : ∀ c ∈ D.map (symbol table), (c != PAD) = true := by
    intro c hc
    obtain ⟨d, hd, rfl⟩ := List.mem_map.mp hc
    exact bne_iff_ne.mpr (symbol_ne_pad hpad (hD d hd))
  rw [List.filter_append, List.filter_eq_self.mpr hdata]
  simp

/-! ## The validity test is the shape of the text (R93) -/

theorem validText_of_paddedText (hG : 0 < G) (hn : table.Nodup) (hpad : PAD ∉ table) (h : PaddedText G table T D) :
    validText G table T = true := by
  obtain ⟨hD, p, rfl, hfinal⟩ := h
  have hcount := dataCount_append_pads hpad hD p
  simp only [validText, hcount, Bool.and_eq_true, decide_eq_true_eq, List.all_eq_true]
  refine ⟨⟨fun c hc => ?_, fun c hc => ?_⟩, fun hlt => ?_⟩
  · rcases List.mem_append.mp hc with hc | hc
    · obtain ⟨d, hd, rfl⟩ := List.mem_map.mp hc
      simp [inverse_symbol hn (hD d hd)]
    · simp [List.eq_of_mem_replicate hc]
  · rw [List.drop_left' (by simp)] at hc
    simp [List.eq_of_mem_replicate hc]
  · rw [finalGroupStart_eq G hG _ (by omega)]
    exact hfinal (by simpa using hlt)

theorem exists_paddedText_of_validText (hG : 0 < G) (h : validText G table T = true) : ∃ D, PaddedText G table T D := by
  obtain ⟨D, hlookup⟩ := validText_lookup h
  obtain ⟨hdata, hD⟩ := lookupAll_eq hlookup
  obtain ⟨-, hle, -⟩ := dataCount_spec T
  have hlen : D.length = dataCount T := by simpa [hle] using lookupAll_length hlookup
  simp only [validText, Bool.and_eq_true, decide_eq_true_eq, List.all_eq_true, beq_iff_eq] at h
  obtain ⟨⟨-, hpads⟩, hfinal⟩ := h
  refine ⟨D, hD, T.length - dataCount T, ?_, fun hpos => ?_⟩
  · have hrest : T.drop (dataCount T) = List.replicate (T.length - dataCount T) PAD :=
      List.eq_replicate_iff.mpr ⟨List.length_drop, hpads⟩
    rw [← hdata, ← hrest, List.take_append_drop]
  · rw [hlen, ← finalGroupStart_eq G hG T (by omega)]
    exact hfinal (by omega)

/-! ## What a decoder answers (R98, R100) -/

theorem decGroup_of_paddedText (hG : 0 < G) (hn : table.Nodup) (hpad : PAD ∉ table) (h : PaddedText G table T D) :
    decGroup b G table T = .ok (unpack b D) := by
  rw [decGroup, if_pos (validText_of_paddedText hG hn hpad h)]
  obtain ⟨hD, p, rfl, -⟩ := h
  rw [dataCount_append_pads hpad hD, List.take_left' (by simp), lookupAll_symbols hn hD]

theorem decGroup_of_not_paddedText (hG : 0 < G) (h : ¬ ∃ D, PaddedText G table T D) :
    decGroup b G table T = .err .invalidCharacterError := by
  rw [decGroup, if_neg fun hvalid => h (exists_paddedText_of_validText hG hvalid)]

/-- A decoder that succeeds was given a padded text. -/
theorem paddedText_of_decGroup (hG : 0 < G) (hn : table.Nodup) (hpad : PAD ∉ table) {out : List Byte}
    (h : decGroup b G table T = .ok out) : ∃ D, PaddedText G table T D ∧ out = unpack b D := by
  by_cases hT : ∃ D, PaddedText G table T D
  · obtain ⟨D, hD⟩ := hT
    exact ⟨D, hD, Result.ok.inj (h.symm.trans (decGroup_of_paddedText hG hn hpad hD))⟩
  · cases h.symm.trans (decGroup_of_not_paddedText hG hT)

/-! ## Adding the pad symbols of the last group (R92, R103) -/

theorem paddedText_padded (hG : 0 < G) (hD : ∀ d ∈ D, d < table.length) :
    PaddedText G table (padded G (symbols table D)) D := by
  refine ⟨hD, _, rfl, fun _ => ?_⟩
  simpa [length_padded, symbols] using finalGroupStart_le hG D.length

/-- A text whose missing pad symbols make it a padded text was one already: they all come after its data. -/
theorem paddedText_append_pads_iff (hG : 0 < G) (hpad : PAD ∉ table) :
    PaddedText G table (T ++ List.replicate ((G - T.length % G) % G) PAD) D ↔ PaddedText G table T D := by
  have hlast : (T ++ List.replicate ((G - T.length % G) % G) PAD).length - 1 =
      T.length + (G - T.length % G) % G - 1 := by simp
  constructor
  · rintro ⟨hD, p, hT, hfinal⟩
    rw [hlast, lastGroup_add_pads hG] at hfinal
    rcases List.append_eq_append_iff.mp hT with ⟨beyond, hdata, hpads⟩ | ⟨given, rfl, hpads⟩
    · have hnil : beyond = [] := List.eq_nil_iff_forall_not_mem.mpr fun c hc => by
        have hc_pad : c = PAD := List.eq_of_mem_replicate (hpads ▸ List.mem_append_left _ hc)
        obtain ⟨d, hd, hc_data⟩ := List.mem_map.mp (hdata ▸ List.mem_append_right T hc)
        exact symbol_ne_pad hpad (hD d hd) (hc_data.trans hc_pad)
      exact ⟨hD, 0, by simp [hdata, hnil], fun h => absurd h (lt_irrefl 0)⟩
    · have hgiven : given = List.replicate given.length PAD := List.eq_replicate_iff.mpr ⟨rfl, fun c hc =>
        List.eq_of_mem_replicate (hpads ▸ List.mem_append_left _ hc)⟩
      have hp : given.length ≤ p := by
        have hlen := congrArg List.length hpads
        rw [List.length_replicate, List.length_append] at hlen
        omega
      exact ⟨hD, given.length, by rw [← hgiven], fun h => hfinal (by omega)⟩
  · rintro ⟨hD, p, hT, hfinal⟩
    refine ⟨hD, p + (G - T.length % G) % G, ?_, fun _ => ?_⟩
    · rw [hT]
      simp only [List.append_assoc, List.replicate_append_replicate]
    · rw [hlast, lastGroup_add_pads hG]
      by_cases hp : 0 < p
      · exact hfinal hp
      · have hlen : T.length = D.length + p := by simp [hT]
        exact (Nat.mul_div_le _ _).trans (by omega)

theorem decGroup_append_pads (hG : 0 < G) (hn : table.Nodup) (hpad : PAD ∉ table) :
    decGroup b G table (T ++ List.replicate ((G - T.length % G) % G) PAD) = decGroup b G table T := by
  have hiff := fun D => paddedText_append_pads_iff (T := T) (D := D) hG hpad
  by_cases hT : ∃ D, PaddedText G table T D
  · obtain ⟨D, hD⟩ := hT
    rw [decGroup_of_paddedText hG hn hpad hD, decGroup_of_paddedText hG hn hpad ((hiff D).mpr hD)]
  · rw [decGroup_of_not_paddedText hG hT, decGroup_of_not_paddedText hG (by simpa only [hiff] using hT)]

end Sys2Proof.Machine

/-! The functions and commands of the Fixed-Group Codec (R91 to R100, R104, R105): what each result is, bit by bit, and
that a decoder undoes its encoder. -/

namespace Sys2Proof.Machine

variable {s : State} {i : Instr} {G b m p : Nat} {table P T : List Byte} {D : List Nat}

/-! ## A bit of a byte sequence and of a digit sequence (R43, R94) -/

theorem streamBit_eq (P : List Byte) (p : Nat) : streamBit P p = decide (payloadBit P p = 1) := by
  by_cases hp : p < 8 * P.length
  · have hk : p / 8 < P.length := by omega
    simp [streamBit, payloadBit, hp, hk, BitVec.testBit_toNat]
  · have hk : P.length ≤ p / 8 := by omega
    simp [streamBit, payloadBit, hp, hk]

theorem digitStreamBit_eq (b : Nat) (D : List Nat) (p : Nat) :
    digitStreamBit b D p = decide (digitBit b D p = 1) := by
  rw [digitBit, shiftRight_and_one_eq_one, digitStreamBit, List.getD_eq_getElem?_getD]
  cases D[p / b]? <;> simp

/-! ## Digits of a payload and bytes of a digit sequence (R91, R94) -/

theorem groupDigits_getElem? (b : Nat) (P : List Byte) {k : Nat} (hk : k < ceilDiv (8 * P.length) b) :
    (groupDigits b P)[k]? = some (bitField (payloadBit P) (k * b) b) := by
  simp [groupDigits, hk, digitAt_eq_bitField]

theorem groupDigits_lt (b : Nat) (P : List Byte) : ∀ d ∈ groupDigits b P, d < 2 ^ b := by
  intro d hd
  obtain ⟨k, -, rfl⟩ := List.mem_map.mp hd
  exact digitAt_lt b P k

theorem unpack_length (b : Nat) (D : List Nat) : (unpack b D).length = D.length * b / 8 := by simp [unpack]

theorem unpack_getElem? (b : Nat) (D : List Nat) {k : Nat} (hk : k < D.length * b / 8) :
    (unpack b D)[k]? = some (BitVec.ofNat 8 (bitField (digitBit b D) (8 * k) 8)) := by
  simp [unpack, hk, byteAt_eq_bitField]

/-- Every bit of the unpacked bytes is the same position of the digits (R94). -/
theorem streamBit_unpack (hp : p < 8 * (unpack b D).length) : streamBit (unpack b D) p = digitStreamBit b D p := by
  rw [unpack_length] at hp
  have hbit := bitField_testBit (digitBit_le b D) (8 * (p / 8)) (n := 8) (u := p % 8) (Nat.mod_lt p (by decide))
  rw [Nat.div_add_mod, ← digitStreamBit_eq] at hbit
  rw [streamBit, unpack_getElem? b D (by omega), ← hbit]
  show (BitVec.ofNat 8 _).getLsbD (7 - p % 8) = _
  rw [BitVec.getLsbD_ofNat, decide_eq_true (by omega), Bool.true_and]

/-- The digits of a payload carry its stream (R91, R94). -/
theorem digitBit_groupDigits (hb : 0 < b) (hp : p < 8 * P.length) :
    digitBit b (groupDigits b P) p = payloadBit P p := by
  have hmod := Nat.mod_lt p hb
  have hk : p / b < ceilDiv (8 * P.length) b := (lt_ceilDiv hb).mpr ((Nat.div_mul_le_self p b).trans_lt hp)
  have hbit := bitField_testBit (payloadBit_le P) (p / b * b) hmod
  rw [Nat.div_add_mod', ← shiftRight_and_one_eq_one, decide_eq_decide] at hbit
  have hdigit : digitBit b (groupDigits b P) p = (bitField (payloadBit P) (p / b * b) b >>> (b - 1 - p % b)) &&& 1 := by
    rw [digitBit, List.getD_eq_getElem?_getD, groupDigits_getElem? b P hk, Option.getD_some]
  have hle := digitBit_le b (groupDigits b P) p
  have hle' := payloadBit_le P p
  rw [← hdigit] at hbit
  omega

/-- Unpacking the digits of a payload gives it back: the filled bits are fewer than a byte (R104). -/
theorem unpack_groupDigits (hb : 0 < b) (hb8 : b ≤ 8) (P : List Byte) : unpack b (groupDigits b P) = P := by
  have hlen : (groupDigits b P).length * b / 8 = P.length := by
    have hmul := Nat.div_add_mod' (8 * P.length + (b - 1)) b
    have hlt := Nat.mod_lt (8 * P.length + (b - 1)) hb
    rw [groupDigits_length, ceilDiv]
    omega
  refine List.ext_getElem (by rw [unpack_length, hlen]) fun k hk hkP => ?_
  refine Option.some.inj ?_
  rw [← List.getElem?_eq_getElem hk, unpack_getElem? b _ (by omega)]
  rw [bitField_congr (g := payloadBit P) (q := 8 * k) fun t ht => digitBit_groupDigits hb (by omega),
    bitField_payloadBit hkP, BitVec.ofNat_toNat, BitVec.setWidth_eq]

/-! ## The encoded text (R97, R99) -/

theorem length_padded_groupDigits (G b : Nat) (table P : List Byte) :
    (padded G (symbols table (groupDigits b P))).length =
      ceilDiv (8 * P.length) b + (G - ceilDiv (8 * P.length) b % G) % G := by
  simp [length_padded, symbols, groupDigits_length]

theorem isGroupText_padded (hb : 0 < b) (htable : table.length = 2 ^ b) (P : List Byte) :
    IsGroupText b table P (padded G (symbols table (groupDigits b P))) := by
  have hcount : (symbols table (groupDigits b P)).length = ceilDiv (8 * P.length) b := by
    simp [symbols, groupDigits_length]
  refine ⟨fun k hk => ?_, fun k hk hlt => ?_⟩
  · have hkc : k < ceilDiv (8 * P.length) b := (lt_ceilDiv hb).mpr hk
    have hdigit := bitField_lt (payloadBit_le P) (k * b) b
    refine ⟨_, _, hdigit, getElem?_symbol (htable ▸ hdigit), ?_, fun u hu => ?_⟩
    · rw [padded, List.getElem?_append_left (by omega), symbols, List.getElem?_map, groupDigits_getElem? b P hkc]
      rfl
    · rw [bitField_testBit (payloadBit_le P) _ hu, streamBit_eq]
  · have hkc : ¬ k < ceilDiv (8 * P.length) b := fun h => absurd ((lt_ceilDiv hb).mp h) (by omega)
    rw [length_padded] at hlt
    rw [padded, List.getElem?_append_right (by omega), List.getElem?_replicate, if_pos (by omega)]

/-! ## Base16 (R95, R96) -/

/-- The two digits of a byte, the high one first. -/
def nibbles (v : Byte) : List Nat := [v.toNat >>> 4, v.toNat &&& 15]

theorem highNibble_eq (v : Byte) : v.toNat >>> 4 = v.toNat / 16 := Nat.shiftRight_eq_div_pow _ 4

theorem lowNibble_eq (v : Byte) : v.toNat &&& 15 = v.toNat % 16 := Nat.and_two_pow_sub_one_eq_mod _ 4

theorem nibbles_lt (v : Byte) : ∀ d ∈ nibbles v, d < 16 := by
  have hv := v.isLt
  simp only [nibbles, highNibble_eq, lowNibble_eq, List.mem_cons, List.not_mem_nil, or_false]
  omega

theorem enc16_eq_symbols (a : Alphabets) (P : List Byte) :
    enc16 a P = .ok (symbols a.alpha16 (P.flatMap nibbles)) := by
  simp [enc16, symbols, nibbles, List.map_flatMap]

theorem length_of_enc16 {a : Alphabets} {out : List Byte} (h : enc16 a P = .ok out) : out.length = 2 * P.length := by
  obtain rfl := Result.ok.inj h
  exact length_flatMap_pair _ _ P

/-- The two symbols of a byte are the table's entries at its two digits (R95). -/
theorem enc16_getElem? {a : Alphabets} {out : List Byte} {k : Nat} {v : Byte} (htable : a.alpha16.length = 16)
    (h : enc16 a P = .ok out) (hv : P[k]? = some v) :
    ∃ high low, a.alpha16[v.toNat / 16]? = some high ∧ a.alpha16[v.toNat % 16]? = some low ∧
      out[2 * k]? = some high ∧ out[2 * k + 1]? = some low := by
  obtain rfl := Result.ok.inj h
  obtain ⟨hhigh, hlow⟩ := getElem?_flatMap_pair (fun v => symbol a.alpha16 (v.toNat >>> 4))
    (fun v => symbol a.alpha16 (v.toNat &&& 15)) P k v hv
  have hlt := v.isLt
  refine ⟨_, _, ?_, ?_, hhigh, hlow⟩
  · rw [highNibble_eq, getElem?_symbol (by omega)]
  · rw [lowNibble_eq, getElem?_symbol (by omega)]

theorem joinPairs_nibbles (P : List Byte) : joinPairs (P.flatMap nibbles) = P := by
  induction P with
  | nil => rfl
  | cons v P ih =>
    have hjoin : (v.toNat >>> 4) <<< 4 ||| (v.toNat &&& 15) = v.toNat := by
      rw [lowNibble_eq, nibbles_join _ _ (Nat.mod_lt _ (by decide)), highNibble_eq, Nat.div_add_mod]
    show BitVec.ofNat 8 ((v.toNat >>> 4) <<< 4 ||| (v.toNat &&& 15)) :: joinPairs (P.flatMap nibbles) = v :: P
    rw [hjoin, ih, BitVec.ofNat_toNat, BitVec.setWidth_eq]

theorem dec16_of_odd {a : Alphabets} (h : T.length % 2 = 1) : dec16 a T = .err .lengthError := if_pos h

theorem dec16_of_lookup {a : Alphabets} (h : T.length % 2 = 0) (hD : lookupAll a.alpha16 T = some D) :
    dec16 a T = .ok (joinPairs D) := by
  rw [dec16, if_neg (by omega), hD]

theorem dec16_of_foreign {a : Alphabets} (h : T.length % 2 = 0) (hc : ∃ c ∈ T, c ∉ a.alpha16) :
    dec16 a T = .err .invalidCharacterError := by
  rw [dec16, if_neg (by omega), lookupAll_none.mpr hc]

theorem length_of_dec16 {a : Alphabets} {out : List Byte} (h : dec16 a T = .ok out) : out.length = T.length / 2 := by
  unfold dec16 at h
  split at h
  · cases h
  · split at h
    next D hD =>
      obtain rfl := Result.ok.inj h
      rw [joinPairs_length, lookupAll_length hD]
    · cases h

/-- A byte is 16 times the digit of the first symbol of its pair plus that of the second (R96). -/
theorem joinPairs_of_lookup {k : Nat} (htable : table.length = 16) (hD : lookupAll table T = some D)
    (hk : 2 * k + 1 < T.length) :
    ∃ high low, table[high]? = T[2 * k]? ∧ table[low]? = T[2 * k + 1]? ∧ high < 16 ∧ low < 16 ∧
      (joinPairs D)[k]? = some (BitVec.ofNat 8 (16 * high + low)) := by
  obtain ⟨rfl, hlt⟩ := lookupAll_eq hD
  rw [List.length_map] at hk
  have hhigh := hlt D[2 * k] (List.getElem_mem _)
  have hlow := hlt D[2 * k + 1] (List.getElem_mem _)
  refine ⟨D[2 * k], D[2 * k + 1], ?_, ?_, htable ▸ hhigh, htable ▸ hlow, ?_⟩
  · rw [getElem?_symbol hhigh, List.getElem?_map, List.getElem?_eq_getElem (by omega), Option.map_some]
  · rw [getElem?_symbol hlow, List.getElem?_map, List.getElem?_eq_getElem hk, Option.map_some]
  · rw [joinPairs_getElem? D k hk, nibbles_join _ _ (htable ▸ hlow)]

theorem exists_lookupAll (h : ∀ c ∈ T, c ∈ table) : ∃ D, lookupAll table T = some D :=
  Option.ne_none_iff_exists'.mp fun hnone => by
    obtain ⟨c, hc, hforeign⟩ := lookupAll_none.mp hnone
    exact hforeign (h c hc)

/-! ## The commands (R80, R95 to R100) -/

/-- A command whose function never fails ends in success or for want of room (R82, R85). -/
theorem exec_of_noError (h : ∀ k, functionOf i s.cfg.alphabets s.input ≠ .err k) :
    ∃ t, exec i s = .next t ∧ (t.status = 0x00#8 ∨ t.status = ErrorKind.resourceExhaustedError.code) := by
  rcases exec_cases i s with ⟨-, he⟩ | ⟨-, ⟨k, hf, -⟩ | ⟨out, -, ⟨-, he⟩ | ⟨-, he⟩⟩⟩
  · exact ⟨_, he, .inr rfl⟩
  · exact absurd hf (h k)
  · exact ⟨_, he, .inr rfl⟩
  · exact ⟨_, he, .inl rfl⟩

/-- A command without accumulator whose result fits (R83). -/
theorem exec_expectOk {out : List Byte} (hf : functionOf i s.cfg.alphabets s.input = .ok out)
    (hneed : accNeedOf i s.cfg.alphabets s.input = 0) (hfits : s.Fits 0 out.length) :
    ∃ t, exec i s = .next t ∧ t.ExpectOk out :=
  ⟨_, exec_of_ok hf (hneed ▸ hfits), State.succeed_expectOk _ out⟩

theorem exec_expectErr {k : ErrorKind} (hin : admits s.cfg.ibufCap s.ilen = true)
    (hf : functionOf i s.cfg.alphabets s.input = .err k) : ∃ t, exec i s = .next t ∧ t.ExpectErr k :=
  ⟨_, exec_of_err hin hf, rfl, rfl⟩

/-- A padding encoder writes the whole group text (R97, R99). -/
theorem exec_padded (hb : 0 < b) (htable : table.length = 2 ^ b)
    (hf : functionOf i s.cfg.alphabets s.input = .ok (padded G (symbols table (groupDigits b s.input))))
    (hneed : accNeedOf i s.cfg.alphabets s.input = 0)
    (hm : ceilDiv (8 * s.ilen) b + (G - ceilDiv (8 * s.ilen) b % G) % G = m) (hfits : s.Fits 0 m) :
    ∃ t out, exec i s = .next t ∧ t.ExpectOk out ∧ out.length = m ∧ IsGroupText b table s.input out := by
  have hlen : (padded G (symbols table (groupDigits b s.input))).length = m := by
    rw [length_padded_groupDigits, s.input_length, hm]
  obtain ⟨t, he, hok⟩ := exec_expectOk hf hneed (hlen ▸ hfits)
  exact ⟨t, _, he, hok, hlen, isGroupText_padded hb htable _⟩

/-- A group decoder writes the leading bits of the digits of a padded text (R98, R100). -/
theorem exec_unpack (hG : 0 < G) (hn : table.Nodup) (hpad : PAD ∉ table)
    (hf : functionOf i s.cfg.alphabets s.input = decGroup b G table s.input)
    (hneed : accNeedOf i s.cfg.alphabets s.input = 0) (hT : PaddedText G table s.input D)
    (hm : D.length * b / 8 = m) (hfits : s.Fits 0 m) :
    ∃ t out, exec i s = .next t ∧ t.ExpectOk out ∧ out.length = m ∧
      ∀ p, p < 8 * out.length → streamBit out p = digitStreamBit b D p := by
  have hlen : (unpack b D).length = m := by rw [unpack_length, hm]
  obtain ⟨t, he, hok⟩ := exec_expectOk (hf.trans (decGroup_of_paddedText hG hn hpad hT)) hneed (hlen ▸ hfits)
  exact ⟨t, _, he, hok, hlen, fun p => streamBit_unpack⟩

/-- What a padding encoder wrote, its decoder reads (R104). -/
theorem decGroup_padded (hG : 0 < G) (hb : 0 < b) (hb8 : b ≤ 8) (hn : table.Nodup) (hpad : PAD ∉ table)
    (htable : table.length = 2 ^ b) (P : List Byte) :
    decGroup b G table (padded G (symbols table (groupDigits b P))) = .ok P := by
  have hT := paddedText_padded (table := table) hG fun d hd => htable ▸ groupDigits_lt b P d hd
  rw [decGroup_of_paddedText hG hn hpad hT, unpack_groupDigits hb hb8]

/-! ## Lengths (R85, R105, R148) -/

theorem length_of_decGroup (hG : 0 < G) (hn : table.Nodup) (hpad : PAD ∉ table) {out : List Byte}
    (h : decGroup b G table T = .ok out) : out.length = (T.filter (· != PAD)).length * b / 8 := by
  obtain ⟨D, ⟨hD, p, rfl, -⟩, rfl⟩ := paddedText_of_decGroup hG hn hpad h
  rw [filter_data_append_pads hpad hD, unpack_length, List.length_map]

theorem cleaned_eq_nonWhitespace (T : List Byte) : cleaned T = nonWhitespace T := by
  refine List.filter_congr fun c _ => ?_
  simp [WS85, bytes, isWhitespace, beq_eq_decide, Bool.and_assoc]

theorem length_of_enc85 {a : Alphabets} {P out : List Byte} (h : enc85 a P = .ok out) :
    out.length = 5 * ((P.length + 3) / 4) := by
  obtain rfl := Result.ok.inj h
  rw [symbols, List.length_map, payloadDigits_length _ _ (zeroFilled_length P)]

theorem length_of_dec85 {a : Alphabets} {out : List Byte} (h : dec85 a T = .ok out) :
    5 * out.length = 4 * (nonWhitespace T).length := by
  rw [← cleaned_eq_nonWhitespace]
  unfold dec85 at h
  split at h
  · cases h
  next hmod =>
    split at h
    next D hD =>
      obtain rfl := Result.ok.inj h
      have hlen := lookupAll_length hD
      rw [textBytes_length (D.length / 5) D (by omega)]
      omega
    · cases h

end Sys2Proof.Machine

namespace Sys2Proof

open Machine

/-- Settles O18: each byte's two digits are its quotient and remainder by 16. -/
theorem enc16WritesNibbleSymbols : Obligations.Enc16WritesNibbleSymbols := by
  unfold Obligations.Enc16WritesNibbleSymbols
  refine ⟨by decide, fun s hwf hfits => ?_, fun s => exec_of_noError fun k h => by cases h⟩
  obtain ⟨⟨htable, -⟩, -⟩ := alphabetsOk_parts hwf.1
  obtain ⟨out, hout⟩ : ∃ out, enc16 s.cfg.alphabets s.input = .ok out := ⟨_, rfl⟩
  have hlen : out.length = 2 * s.ilen := by rw [length_of_enc16 hout, s.input_length]
  refine ⟨_, exec_of_ok (i := .enc16) hout (hlen ▸ hfits), rfl, hlen, fun k v hv => ?_⟩
  simpa using enc16_getElem? htable hout hv

/-- Settles O19: the length alone decides first, then the lookups, and each pair of digits is one byte. -/
theorem dec16JoinsNibbles : Obligations.Dec16JoinsNibbles := by
  unfold Obligations.Dec16JoinsNibbles
  refine ⟨by decide, fun s hin hodd => ?_, fun s hin heven hforeign => ?_, fun s hwf hfits heven hsymbols => ?_⟩
  · exact exec_expectErr (i := .dec16) hin (dec16_of_odd (by rwa [s.input_length]))
  · exact exec_expectErr (i := .dec16) hin (dec16_of_foreign (by rwa [s.input_length]) hforeign)
  · obtain ⟨⟨htable, -⟩, -⟩ := alphabetsOk_parts hwf.1
    obtain ⟨D, hD⟩ := exists_lookupAll hsymbols
    have hout : dec16 s.cfg.alphabets s.input = .ok (joinPairs D) := dec16_of_lookup (by rwa [s.input_length]) hD
    have hlen : (joinPairs D).length = s.ilen / 2 := by rw [length_of_dec16 hout, s.input_length]
    refine ⟨_, exec_of_ok (i := .dec16) hout (hlen ▸ hfits), rfl, hlen, fun k hk => ?_⟩
    simpa using joinPairs_of_lookup htable hD (k := k) (by rw [s.input_length]; omega)

/-- Settles O20: the group text of 5-bit digits, padded to a multiple of 8. -/
theorem enc32WritesFiveBitSymbols : Obligations.Enc32WritesFiveBitSymbols := by
  unfold Obligations.Enc32WritesFiveBitSymbols
  refine ⟨by decide, fun s hwf hfits => ?_, fun s => exec_of_noError fun k h => by cases h⟩
  obtain ⟨-, ⟨htable, -⟩, -⟩ := alphabetsOk_parts hwf.1
  exact exec_padded (i := .enc32) (by decide) htable rfl rfl (by unfold ceilDiv; omega) hfits

/-- Settles O21: the padded texts are the ones that succeed, and their digits are unpacked 5 bits each. -/
theorem dec32UnpacksDigits : Obligations.Dec32UnpacksDigits := by
  unfold Obligations.Dec32UnpacksDigits
  refine ⟨by decide, fun s D hwf hT hfits => ?_, fun s hin hT => ?_⟩
  · obtain ⟨-, ⟨-, hn⟩, -, -, -, -, hpad, -⟩ := alphabetsOk_parts hwf.1
    exact exec_unpack (i := .dec32) (b := 5) (by decide) hn hpad rfl rfl hT (by rw [Nat.mul_comm]) hfits
  · exact exec_expectErr (i := .dec32) hin (decGroup_of_not_paddedText (by decide) hT)

/-- Settles O22: the group text of 6-bit digits, padded to a multiple of 4. -/
theorem enc64WritesSixBitSymbols : Obligations.Enc64WritesSixBitSymbols := by
  unfold Obligations.Enc64WritesSixBitSymbols
  refine ⟨by decide, fun s hwf hfits => ?_, fun s => exec_of_noError fun k h => by cases h⟩
  obtain ⟨-, -, -, -, ⟨htable, -⟩, -⟩ := alphabetsOk_parts hwf.1
  exact exec_padded (i := .enc64) (by decide) htable rfl rfl (by unfold ceilDiv; omega) hfits

/-- Settles O23: the padded texts are the ones that succeed, and their digits are unpacked 6 bits each. -/
theorem dec64UnpacksDigits : Obligations.Dec64UnpacksDigits := by
  unfold Obligations.Dec64UnpacksDigits
  refine ⟨by decide, fun s D hwf hT hfits => ?_, fun s hin hT => ?_⟩
  · obtain ⟨-, -, -, -, ⟨-, hn⟩, -, -, hpad⟩ := alphabetsOk_parts hwf.1
    exact exec_unpack (i := .dec64) (b := 6) (by decide) hn hpad rfl rfl hT (by omega) hfits
  · exact exec_expectErr (i := .dec64) hin (decGroup_of_not_paddedText (by decide) hT)

/-- Settles O45: the lookups give back each byte's two digits, and the pair is the byte. -/
theorem base16RoundTrip : Obligations.Base16RoundTrip := by
  unfold Obligations.Base16RoundTrip
  intro a P ha
  obtain ⟨⟨htable, hn⟩, -⟩ := alphabetsOk_parts ha
  have hlookup : lookupAll a.alpha16 (symbols a.alpha16 (P.flatMap nibbles)) = some (P.flatMap nibbles) :=
    lookupAll_symbols hn fun d hd => by
      obtain ⟨v, -, hv⟩ := List.mem_flatMap.mp hd
      exact htable ▸ nibbles_lt v d hv
  have heven := length_of_enc16 (enc16_eq_symbols a P)
  exact ⟨_, enc16_eq_symbols a P, by rw [dec16_of_lookup (by omega) hlookup, joinPairs_nibbles]⟩

/-- Settles O46: the encoded text is a padded text of the payload's digits. -/
theorem base32Base64RoundTrip : Obligations.Base32Base64RoundTrip := by
  unfold Obligations.Base32Base64RoundTrip
  intro a P ha
  obtain ⟨-, ⟨hlen32, hn32⟩, -, -, ⟨hlen64, hn64⟩, -, hpad32, hpad64⟩ := alphabetsOk_parts ha
  exact ⟨⟨_, rfl, decGroup_padded (by decide) (by decide) (by decide) hn32 hpad32 hlen32 P⟩,
    ⟨_, rfl, decGroup_padded (by decide) (by decide) (by decide) hn64 hpad64 hlen64 P⟩⟩

/-- Settles O50: the pad symbols that complete the last group leave a padded text, or none, what it was. -/
theorem missingPaddingIsAccepted : Obligations.MissingPaddingIsAccepted := by
  unfold Obligations.MissingPaddingIsAccepted
  intro a T ha
  obtain ⟨-, ⟨-, hn32⟩, -, -, ⟨-, hn64⟩, -, hpad32, hpad64⟩ := alphabetsOk_parts ha
  exact ⟨decGroup_append_pads (by decide) hn32 hpad32, decGroup_append_pads (by decide) hn64 hpad64⟩

/-- Settles O51: each function's own length lemma. -/
theorem resultLengths : Obligations.ResultLengths := by
  unfold Obligations.ResultLengths
  intro a In out ha
  obtain ⟨-, ⟨-, hn32⟩, -, -, ⟨-, hn64⟩, -, hpad32, hpad64⟩ := alphabetsOk_parts ha
  refine ⟨length_of_enc16, fun h => ?_, fun h => ?_, length_of_enc85, length_of_dec16, fun h => ?_, fun h => ?_,
    length_of_dec85⟩
  · obtain rfl := Result.ok.inj h
    rw [length_padded_groupDigits, ceilDiv]
    omega
  · obtain rfl := Result.ok.inj h
    rw [length_padded_groupDigits, ceilDiv]
    omega
  · rw [length_of_decGroup (by decide) hn32 hpad32 h, Nat.mul_comm]
  · rw [length_of_decGroup (by decide) hn64 hpad64 h]
    omega

end Sys2Proof

/-! The Fixed-Group datapaths (R32, R101, R102): `BITBUF` holds the stream positions taken in and not yet written out,
so what each pass writes is the next field of the stream. -/

namespace Sys2Proof.Machine

variable {f : Nat → Nat} {e : Nat → Byte} {r : FixedRegs} {w p b v fuel : Nat} {table P : List Byte} {D : List Nat}

/-! ## Writing out one field -/

/-- What a pass of either datapath writes: the oldest `w` bits of `BITBUF`, `e` naming the byte that stands for them. -/
def FixedRegs.emit (r : FixedRegs) (w : Nat) (e : Nat → Byte) : FixedRegs :=
  { r with nbits := r.nbits - w, out := r.out ++ [e ((r.bitbuf >>> (r.nbits - w)) &&& (2 ^ w - 1))] }

theorem fixedDrain_succ (b : Nat) (table : List Byte) (fuel : Nat) (r : FixedRegs) :
    fixedDrain b table (fuel + 1) r =
      if b ≤ r.nbits then fixedDrain b table fuel (r.emit b (symbol table)) else r := rfl

theorem fixedDecSymbol_eq (b : Nat) (r : FixedRegs) (v : Nat) :
    fixedDecSymbol b r v =
      if 8 ≤ (r.take b v).nbits then ((r.take b v).emit 8 (BitVec.ofNat 8)).keepValid else r.take b v := rfl

theorem keepValid_bitbuf (r : FixedRegs) : r.keepValid.bitbuf = r.bitbuf % 2 ^ r.nbits :=
  Nat.and_two_pow_sub_one_eq_mod _ _

/-! ## The registers and the stream -/

theorem mul_two_pow_add_mod {m v : Nat} (x n : Nat) (hv : v < 2 ^ m) :
    (x * 2 ^ m + v) % 2 ^ (n + m) = x % 2 ^ n * 2 ^ m + v := by
  rw [Nat.pow_add, Nat.mul_comm (2 ^ n), Nat.mod_mul, Nat.mul_add_mod_of_lt hv, Nat.add_comm (x * 2 ^ m),
    Nat.add_mul_div_right _ _ (Nat.two_pow_pos m), Nat.div_eq_of_lt hv, Nat.zero_add, Nat.add_comm, Nat.mul_comm]

/-- The registers after `p` positions of the stream `f`: the output holds the leading fields of `w` positions, each as
the byte `e` of its number, and the valid bits of `BITBUF` are the positions after those. -/
structure Regrouped (e : Nat → Byte) (w : Nat) (f : Nat → Nat) (p : Nat) (r : FixedRegs) : Prop where
  out : r.out = (List.range r.out.length).map fun k => e (bitField f (k * w) w)
  taken : r.out.length * w + r.nbits = p
  valid : r.bitbuf % 2 ^ r.nbits = bitField f (r.out.length * w) r.nbits

theorem Regrouped.start (e : Nat → Byte) (w : Nat) (f : Nat → Nat) : Regrouped e w f 0 FixedRegs.start where
  out := rfl
  taken := by simp [FixedRegs.start]
  valid := by simp [FixedRegs.start]

theorem Regrouped.take (h : Regrouped e w f p r) (m : Nat) (hv : v < 2 ^ m) (hfield : bitField f p m = v) :
    Regrouped e w f (p + m) (r.take m v) where
  out := h.out
  taken := by rw [← h.taken]; exact (Nat.add_assoc _ _ _).symm
  valid := by
    have htaken := h.taken
    show (r.bitbuf <<< m ||| v) % 2 ^ (r.nbits + m) = bitField f (r.out.length * w) (r.nbits + m)
    rw [bitField_add, htaken, hfield, ← h.valid, ← Nat.shiftLeft_add_eq_or_of_lt hv, Nat.shiftLeft_eq,
      mul_two_pow_add_mod _ _ hv]

theorem Regrouped.keepValid (h : Regrouped e w f p r) : Regrouped e w f p r.keepValid where
  out := h.out
  taken := h.taken
  valid := by rw [keepValid_bitbuf]; exact (Nat.mod_mod _ _).trans h.valid

theorem Regrouped.emit (hf : ∀ i, f i ≤ 1) (h : Regrouped e w f p r) (hw : w ≤ r.nbits) :
    Regrouped e w f p (r.emit w e) := by
  obtain ⟨n, hn⟩ := Nat.exists_eq_add_of_le hw
  obtain ⟨hout, htaken, hvalid⟩ := h
  have hrest : r.nbits - w = n := by omega
  rw [hn] at hvalid
  have hfield : (r.bitbuf >>> (r.nbits - w)) &&& (2 ^ w - 1) = bitField f (r.out.length * w) w := by
    rw [hrest, Nat.and_two_pow_sub_one_eq_mod, Nat.shiftRight_eq_div_pow, ← Nat.mod_mul_right_div_self, ← Nat.pow_add,
      Nat.add_comm n, hvalid, bitField_div hf]
  have hlen : (r.emit w e).out.length = r.out.length + 1 := by simp [FixedRegs.emit]
  refine ⟨?_, ?_, ?_⟩
  · rw [hlen, List.range_succ, List.map_append, ← hout]
    simp [FixedRegs.emit, hfield]
  · rw [hlen, Nat.succ_mul]
    show _ + (r.nbits - w) = p
    omega
  · rw [hlen, Nat.succ_mul]
    show r.bitbuf % 2 ^ (r.nbits - w) = bitField f (r.out.length * w + w) (r.nbits - w)
    rw [hrest, ← bitField_mod hf, ← hvalid, Nat.pow_add, Nat.mod_mul_left_mod]

theorem Regrouped.drain (hf : ∀ i, f i ≤ 1) (h : Regrouped (symbol table) b f p r) (fuel : Nat) :
    Regrouped (symbol table) b f p (fixedDrain b table fuel r) := by
  induction fuel generalizing r with
  | zero => exact h
  | succ fuel ih =>
    rw [fixedDrain_succ]
    split
    next hb => exact ih (h.emit hf hb)
    next => exact h

/-! ## The bounds of the registers (R32) -/

theorem fixedDrain_nbits_lt (hb : 0 < b) (hfuel : r.nbits ≤ fuel) : (fixedDrain b table fuel r).nbits < b := by
  induction fuel generalizing r with
  | zero => show r.nbits < b; omega
  | succ fuel ih =>
    rw [fixedDrain_succ]
    split
    next => exact ih (show r.nbits - b ≤ fuel by omega)
    next hlt => omega

theorem fixedEncByte_bounds (hb : 0 < b) (v : Byte) :
    (fixedEncByte b table r v).nbits < b ∧
      (fixedEncByte b table r v).bitbuf < 2 ^ (fixedEncByte b table r v).nbits := by
  refine ⟨fixedDrain_nbits_lt hb le_rfl, ?_⟩
  show FixedRegs.bitbuf (FixedRegs.keepValid _) < _
  rw [keepValid_bitbuf]
  exact Nat.mod_lt _ (Nat.two_pow_pos _)

theorem fixedEncLoop_append (b : Nat) (table P : List Byte) (v : Byte) :
    fixedEncLoop b table (P ++ [v]) = fixedEncByte b table (fixedEncLoop b table P) v := by simp [fixedEncLoop]

theorem fixedEncLoop_bounds (hb : 0 < b) (table P : List Byte) :
    (fixedEncLoop b table P).nbits < b ∧ (fixedEncLoop b table P).bitbuf < 2 ^ (fixedEncLoop b table P).nbits := by
  induction P using List.reverseRecOn with
  | nil => exact ⟨hb, Nat.one_pos⟩
  | append_singleton P v _ => rw [fixedEncLoop_append]; exact fixedEncByte_bounds hb v

theorem take_bitbuf_lt {m : Nat} (hr : r.bitbuf < 2 ^ r.nbits) (hv : v < 2 ^ m) :
    (r.take m v).bitbuf < 2 ^ (r.nbits + m) := by
  refine Nat.or_lt_two_pow ?_ (hv.trans_le (Nat.pow_le_pow_right (by decide) (by omega)))
  rw [Nat.shiftLeft_eq, Nat.pow_add]
  exact Nat.mul_lt_mul_of_pos_right hr (Nat.two_pow_pos m)

/-! ## The encoder (R101) -/

theorem regrouped_fixedEncLoop (b : Nat) (table P : List Byte) {n : Nat} (hn : n ≤ P.length) :
    Regrouped (symbol table) b (payloadBit P) (8 * n) (fixedEncLoop b table (P.take n)) := by
  induction n with
  | zero => exact .start _ _ _
  | succ n ih =>
    rw [← List.take_append_getElem hn, fixedEncLoop_append]
    have htaken := (ih (by omega)).take 8 P[n].isLt (bitField_payloadBit hn)
    exact (htaken.drain (payloadBit_le P) _).keepValid

/-- The short last digit is filled with the zeros past the end of the payload (R91, R101). -/
theorem bitField_shortDigit {n : Nat} (hend : p + n = 8 * P.length) (hn : n < b) :
    (bitField (payloadBit P) p n <<< (b - n)) &&& (2 ^ b - 1) = bitField (payloadBit P) p b := by
  have hfilled : bitField (payloadBit P) (p + n) (b - n) = 0 :=
    bitField_eq_zero fun _ _ => payloadBit_of_le (hend ▸ Nat.le_add_right _ _)
  have hfield := bitField_add (payloadBit P) p n (b - n)
  rw [Nat.add_sub_of_le hn.le, hfilled, Nat.add_zero] at hfield
  rw [Nat.and_two_pow_sub_one_eq_mod, Nat.shiftLeft_eq, ← hfield, Nat.mod_eq_of_lt (bitField_lt (payloadBit_le P) p b)]

theorem symbols_groupDigits (b : Nat) (table P : List Byte) :
    symbols table (groupDigits b P) =
      (List.range (ceilDiv (8 * P.length) b)).map fun k => symbol table (bitField (payloadBit P) (k * b) b) := by
  simp [symbols, groupDigits, digitAt_eq_bitField]

theorem fixedEncTail_eq (h : Regrouped (symbol table) b (payloadBit P) (8 * P.length) r) (hlt : r.nbits < b)
    (hbuf : r.bitbuf < 2 ^ r.nbits) : fixedEncTail b table r = symbols table (groupDigits b P) := by
  obtain ⟨hout, htaken, hvalid⟩ := h
  rw [Nat.mod_eq_of_lt hbuf] at hvalid
  have hcount : ceilDiv (8 * P.length) b = r.out.length + ceilDiv r.nbits b := by
    rw [ceilDiv, ← htaken, Nat.add_assoc, Nat.mul_comm, Nat.mul_add_div (by omega), ceilDiv]
  rw [symbols_groupDigits, hcount, fixedEncTail]
  split
  next hpos =>
    have hone : ceilDiv r.nbits b = 1 := Nat.div_eq_of_lt_le (by omega) (by omega)
    rw [hone, List.range_succ, List.map_append, ← hout, hvalid, bitField_shortDigit htaken hlt]
    rfl
  next hzero =>
    have hnone : ceilDiv r.nbits b = 0 := Nat.div_eq_of_lt (by omega)
    rw [hnone]
    exact hout

theorem fixedEncTail_fixedEncLoop (hb : 0 < b) (table P : List Byte) :
    fixedEncTail b table (fixedEncLoop b table P) = symbols table (groupDigits b P) := by
  obtain ⟨hlt, hbuf⟩ := fixedEncLoop_bounds hb table P
  have h := regrouped_fixedEncLoop b table P le_rfl
  rw [List.take_length] at h
  exact fixedEncTail_eq h hlt hbuf

theorem padCount_succ {G n : Nat} (hG : 0 < G) (h : n % G ≠ 0) :
    (G - n % G) % G = (G - (n + 1) % G) % G + 1 := by
  have hlt := Nat.mod_lt n hG
  rw [Nat.mod_eq_of_lt (by omega : G - n % G < G), ← Nat.mod_add_mod]
  by_cases hlast : n % G + 1 = G
  · simp only [hlast, Nat.mod_self, Nat.sub_zero]
    omega
  · rw [Nat.mod_eq_of_lt (by omega : n % G + 1 < G), Nat.mod_eq_of_lt (by omega : G - (n % G + 1) < G)]
    omega

theorem padLoop_eq {G : Nat} {out : List Byte} (hG : 0 < G) (hfuel : (G - out.length % G) % G ≤ fuel) :
    padLoop G fuel out = padded G out := by
  induction fuel generalizing out with
  | zero => simp [padLoop, padded, Nat.le_zero.mp hfuel]
  | succ fuel ih =>
    rw [padLoop]
    split
    next hne =>
      have hcount := padCount_succ hG hne
      rw [ih (by simp; omega)]
      simp [padded, hcount, List.replicate_succ]
    next hzero =>
      simp [padded, not_not.mp hzero]

theorem fixedEncode_some {G : Nat} (hG : 0 < G) (hb : 0 < b) (table P : List Byte) :
    fixedEncode b (some G) table P = padded G (symbols table (groupDigits b P)) := by
  show padLoop G G (fixedEncTail b table (fixedEncLoop b table P)) = _
  rw [fixedEncTail_fixedEncLoop hb, padLoop_eq hG (Nat.mod_lt _ hG).le]

/-- A digit of 4 bits is half of a byte (R91, R95). -/
theorem symbols_groupDigits_four (table P : List Byte) :
    symbols table (groupDigits 4 P) =
      P.flatMap fun v => [symbol table (v.toNat >>> 4), symbol table (v.toNat &&& 15)] := by
  refine List.ext_getElem? fun k => ?_
  by_cases hk : k / 2 < P.length
  · obtain ⟨hhigh, hlow⟩ := getElem?_flatMap_pair (fun v => symbol table (v.toNat >>> 4))
      (fun v => symbol table (v.toNat &&& 15)) P (k / 2) _ (List.getElem?_eq_getElem hk)
    have hdigit := groupDigits_getElem? 4 P (k := k) ((lt_ceilDiv (by decide)).mpr (by omega))
    have hbyte := bitField_payloadBit hk
    have hfirst := bitField_div (payloadBit_le P) (8 * (k / 2)) 4 4
    have hsecond := bitField_mod (payloadBit_le P) (8 * (k / 2)) 4 4
    rw [hbyte] at hfirst hsecond
    rw [symbols, List.getElem?_map, hdigit, Option.map_some]
    rcases Nat.mod_two_eq_zero_or_one k with hpar | hpar
    · rw [show k * 4 = 8 * (k / 2) by omega, ← hfirst, ← Nat.shiftRight_eq_div_pow, ← hhigh]
      exact congrArg _ (by omega)
    · rw [show k * 4 = 8 * (k / 2) + 4 by omega, ← hsecond, ← Nat.and_two_pow_sub_one_eq_mod, ← hlow]
      exact congrArg _ (by omega)
  · have hlen := length_flatMap_pair (fun v => symbol table (v.toNat >>> 4)) (fun v => symbol table (v.toNat &&& 15)) P
    rw [List.getElem?_eq_none (by rw [symbols, List.length_map, groupDigits_length, ceilDiv]; omega),
      List.getElem?_eq_none (by omega)]

/-! ## The decoder (R102) -/

/-- One digit leaves fewer than 8 bits, since at most one byte is complete (R32). -/
theorem fixedDecSymbol_regrouped (hf : ∀ i, f i ≤ 1) (hb8 : b ≤ 8) (h : Regrouped (BitVec.ofNat 8) 8 f p r)
    (hr : r.nbits < 8) (hv : v < 2 ^ b) (hfield : bitField f p b = v) :
    Regrouped (BitVec.ofNat 8) 8 f (p + b) (fixedDecSymbol b r v) ∧ (fixedDecSymbol b r v).nbits < 8 := by
  have htake := h.take b hv hfield
  have hbits : (r.take b v).nbits = r.nbits + b := rfl
  rw [fixedDecSymbol_eq]
  split
  next hfull => exact ⟨(htake.emit hf hfull).keepValid, show (r.take b v).nbits - 8 < 8 by omega⟩
  next hshort => exact ⟨htake, not_le.mp hshort⟩

theorem regrouped_fixedDecSymbols (hb8 : b ≤ 8) (hD : ∀ d ∈ D, d < 2 ^ b) {n : Nat} (hn : n ≤ D.length) :
    Regrouped (BitVec.ofNat 8) 8 (digitBit b D) (n * b) ((D.take n).foldl (fixedDecSymbol b) FixedRegs.start) ∧
      ((D.take n).foldl (fixedDecSymbol b) FixedRegs.start).nbits < 8 := by
  induction n with
  | zero => exact ⟨by simpa using Regrouped.start _ _ _, show 0 < 8 by decide⟩
  | succ n ih =>
    obtain ⟨hgroup, hbits⟩ := ih (by omega)
    have hd := hD D[n] (List.getElem_mem hn)
    rw [← List.take_append_getElem hn, List.foldl_append, Nat.succ_mul]
    exact fixedDecSymbol_regrouped (digitBit_le b D) hb8 hgroup hbits hd (bitField_digitBit hn hd)

theorem fixedDecSymbols_out (hb8 : b ≤ 8) (hD : ∀ d ∈ D, d < 2 ^ b) :
    (D.foldl (fixedDecSymbol b) FixedRegs.start).out = unpack b D := by
  obtain ⟨⟨hout, htaken, -⟩, hlt⟩ := regrouped_fixedDecSymbols hb8 hD le_rfl
  rw [List.take_length] at hout htaken hlt
  have hlen : (D.foldl (fixedDecSymbol b) FixedRegs.start).out.length = D.length * b / 8 := by omega
  rw [hout, hlen, unpack]
  simp [byteAt_eq_bitField, Nat.mul_comm]

variable {L G i : Nat} {T : List Byte}

theorem fixedDecSymbol_seenpad (b : Nat) (r : FixedRegs) (v : Nat) : (fixedDecSymbol b r v).seenpad = r.seenpad := by
  rw [fixedDecSymbol_eq]
  split <;> rfl

theorem fixedDecLoop_data (hn : table.Nodup) (hpad : PAD ∉ table) (hD : ∀ d ∈ D, d < table.length)
    (hr : r.seenpad = false) :
    fixedDecLoop b L table i r (D.map (symbol table) ++ T) =
      fixedDecLoop b L table (i + D.length) (D.foldl (fixedDecSymbol b) r) T := by
  induction D generalizing i r with
  | nil => rfl
  | cons d D ih =>
    rw [List.forall_mem_cons] at hD
    obtain ⟨hd, hD⟩ := hD
    rw [List.map_cons, List.cons_append, fixedDecLoop, if_neg (symbol_ne_pad hpad hd)]
    simp only [inverse_symbol hn hd, hr, Bool.false_eq_true, if_false]
    rw [ih hD ((fixedDecSymbol_seenpad b r d).trans hr), List.length_cons, List.foldl_cons, Nat.add_right_comm i,
      Nat.add_assoc i]

theorem fixedDecLoop_pads (h : 0 < p → L ≤ i) :
    fixedDecLoop b L table i r (List.replicate p PAD) = .ok r.out := by
  induction p generalizing i r with
  | zero => rfl
  | succ p ih =>
    have hi := h p.succ_pos
    rw [List.replicate_succ, fixedDecLoop, if_pos rfl, if_neg (by omega)]
    exact ih fun _ => by omega

/-- Once `SEENPAD` is set only pad symbols are taken. -/
theorem fixedDecLoop_seenpad (hr : r.seenpad = true)
    (h : fixedDecLoop b L table i r T ≠ .err .invalidCharacterError) : ∀ c ∈ T, c = PAD := by
  induction T generalizing i r with
  | nil => simp
  | cons c T ih =>
    rw [fixedDecLoop] at h
    split at h
    next hc =>
      split at h
      next => exact absurd rfl h
      next => exact List.forall_mem_cons.mpr ⟨hc, ih rfl h⟩
    next =>
      split at h
      next => exact absurd rfl h
      next => exact absurd rfl h

/-- What the loop takes is data symbols and then pad symbols, none of them before index `L` (R93). -/
theorem fixedDecLoop_taken (hr : r.seenpad = false)
    (h : fixedDecLoop b L table i r T ≠ .err .invalidCharacterError) :
    ∃ (D : List Nat) (p : Nat), T = D.map (symbol table) ++ List.replicate p PAD ∧ (∀ d ∈ D, d < table.length) ∧
      (0 < p → L ≤ i + D.length) := by
  induction T generalizing i r with
  | nil => exact ⟨[], 0, rfl, by simp, fun h => absurd h (lt_irrefl 0)⟩
  | cons c T ih =>
    rw [fixedDecLoop] at h
    split at h
    next hc =>
      split at h
      next => exact absurd rfl h
      next hL =>
        have hpads : c :: T = List.replicate (T.length + 1) PAD := List.eq_replicate_iff.mpr
          ⟨rfl, List.forall_mem_cons.mpr ⟨hc, fixedDecLoop_seenpad rfl h⟩⟩
        exact ⟨[], T.length + 1, hpads, by simp, fun _ => not_lt.mp hL⟩
    next =>
      split at h
      next => exact absurd rfl h
      next d hd =>
        obtain ⟨hlt, hsymbol⟩ := symbol_of_inverse hd
        rw [if_neg (by simp [hr])] at h
        obtain ⟨D, p, rfl, hD, hL⟩ := ih ((fixedDecSymbol_seenpad b r d).trans hr) h
        refine ⟨d :: D, p, by simp [hsymbol], List.forall_mem_cons.mpr ⟨hlt, hD⟩, fun hp => ?_⟩
        rw [List.length_cons]
        have := hL hp
        omega

/-- The index `L` of R102 is the start of the final group of R93. -/
theorem ceilDiv_sub_one (hG : 0 < G) (n : Nat) : ceilDiv n G - 1 = (n - 1) / G := by
  rw [ceilDiv]
  rcases Nat.eq_zero_or_pos n with rfl | hn
  · rw [Nat.div_eq_of_lt (by omega), Nat.zero_sub, Nat.zero_div]
  · rw [show n + (G - 1) = n - 1 + G by omega, Nat.add_div_right _ hG, Nat.succ_sub_one]

theorem fixedDecode_of_paddedText (hG : 0 < G) (hb8 : b ≤ 8) (hn : table.Nodup) (hpad : PAD ∉ table)
    (htable : table.length = 2 ^ b) (h : PaddedText G table T D) :
    fixedDecode b G table T = .ok (unpack b D) := by
  rw [fixedDecode, ceilDiv_sub_one hG]
  obtain ⟨hD, p, rfl, hfinal⟩ := h
  rw [fixedDecLoop_data hn hpad hD rfl, Nat.zero_add, fixedDecLoop_pads hfinal,
    fixedDecSymbols_out hb8 fun d hd => htable ▸ hD d hd]

theorem fixedDecode_of_not_paddedText (hG : 0 < G) (h : ¬ ∃ D, PaddedText G table T D) :
    fixedDecode b G table T = .err .invalidCharacterError := by
  by_contra hne
  rw [fixedDecode, ceilDiv_sub_one hG] at hne
  obtain ⟨D, p, hT, hD, hfinal⟩ := fixedDecLoop_taken rfl hne
  exact h ⟨D, hD, p, hT, by simpa using hfinal⟩

/-- Datapath and function accept the same texts and unpack the same digits (R98, R100, R102). -/
theorem decGroup_eq_fixedDecode (hG : 0 < G) (hb8 : b ≤ 8) (hn : table.Nodup) (hpad : PAD ∉ table)
    (htable : table.length = 2 ^ b) (T : List Byte) : decGroup b G table T = fixedDecode b G table T := by
  by_cases hT : ∃ D, PaddedText G table T D
  · obtain ⟨D, hD⟩ := hT
    rw [decGroup_of_paddedText hG hn hpad hD, fixedDecode_of_paddedText hG hb8 hn hpad htable hD]
  · rw [decGroup_of_not_paddedText hG hT, fixedDecode_of_not_paddedText hG hT]

end Sys2Proof.Machine

namespace Sys2Proof

open Machine

/-- Settles O53: each pass writes the next digit of the payload's stream, the tail the short last one. -/
theorem fixedEncoderDatapath : Obligations.FixedEncoderDatapath := by
  unfold Obligations.FixedEncoderDatapath
  intro a P
  refine ⟨congrArg Result.ok ?_, congrArg Result.ok ?_, congrArg Result.ok ?_⟩
  · exact (symbols_groupDigits_four _ P).symm.trans (fixedEncTail_fixedEncLoop (by decide) _ P).symm
  · exact (fixedEncode_some (by decide) (by decide) _ P).symm
  · exact (fixedEncode_some (by decide) (by decide) _ P).symm

/-- Settles O54: the loop takes exactly the padded texts, and writes the next byte of their digits' stream. -/
theorem fixedDecoderDatapath : Obligations.FixedDecoderDatapath := by
  unfold Obligations.FixedDecoderDatapath
  intro a T ha
  obtain ⟨-, ⟨hlen32, hn32⟩, -, -, ⟨hlen64, hn64⟩, -, hpad32, hpad64⟩ := alphabetsOk_parts ha
  exact ⟨decGroup_eq_fixedDecode (by decide) (by decide) hn32 hpad32 hlen32 T,
    decGroup_eq_fixedDecode (by decide) (by decide) hn64 hpad64 hlen64 T⟩

/-- Settles O58: the drain leaves fewer than `b` bits, the mask keeps only those, and a byte adds 8. -/
theorem fixedRegisterBounds : Obligations.FixedRegisterBounds := by
  unfold Obligations.FixedRegisterBounds
  intro b table P v hb
  have hpos : 0 < b := by
    simp only [List.mem_cons, List.not_mem_nil, or_false] at hb
    omega
  obtain ⟨hlt, hbuf⟩ := fixedEncLoop_bounds hpos table P
  have hbits : (fixedEncLoop b table P).nbits + 8 ≤ b - 1 + 8 := by omega
  exact ⟨hlt, hbuf, hbits, (take_bitbuf_lt hbuf v.isLt).trans_le (Nat.pow_le_pow_right (by decide) hbits)⟩

end Sys2Proof

/-! Numbers and their digits (R121): the model's `num` and `digits` are Mathlib's `Nat.ofDigits` and `Nat.digits` read
most significant first, so every number has one digit sequence, and its length is bounded by powers of the radix. -/

namespace Sys2Proof.Machine

variable {R S N k : Nat} {B D : List Nat}

/-! ## The positional sum -/

theorem num_eq_sum (R : Nat) (D : List Nat) :
    num R D = ∑ i ∈ Finset.range D.length, D.getD i 0 * R ^ (D.length - 1 - i) := by
  induction D with
  | nil => rfl
  | cons d D ih =>
    rw [List.length_cons, Finset.sum_range_succ', num, ih, Nat.add_comm]
    simp [Nat.sub_add_eq, Nat.sub_right_comm]

theorem num_eq_ofDigits (R : Nat) (D : List Nat) : num R D = Nat.ofDigits R D.reverse := by
  induction D with
  | nil => rfl
  | cons d D ih =>
    rw [num, ih, List.reverse_cons, Nat.ofDigits_append, Nat.ofDigits_singleton, List.length_reverse]
    ring

theorem num_lt (hR : 2 ≤ R) (hD : ∀ d ∈ D, d < R) : num R D < R ^ D.length := by
  rw [num_eq_ofDigits, ← List.length_reverse]
  exact Nat.ofDigits_lt_base_pow_length hR fun d hd => hD d (List.mem_reverse.mp hd)

/-- Leading zero digits do not change a number (R134). -/
theorem num_replicate_zero_append (R z : Nat) (D : List Nat) : num R (List.replicate z 0 ++ D) = num R D := by
  rw [num_eq_ofDigits, List.reverse_append, List.reverse_replicate, Nat.ofDigits_append_replicate_zero,
    ← num_eq_ofDigits]

/-! ## The digits of a number -/

theorem digits_eq_reverse (hR : 2 ≤ R) (N : Nat) : digits R N = (Nat.digits R N).reverse := by
  induction N using Nat.strong_induction_on with
  | _ N ih =>
    rcases Nat.eq_zero_or_pos N with rfl | hN
    · simp
    · rw [digits_pos hR hN.ne', ih _ (Nat.div_lt_self hN hR), Nat.digits_def' hR hN, List.reverse_cons]

theorem properDigits_digits (hR : 2 ≤ R) (N : Nat) : ProperDigits R (digits R N) := by
  refine ⟨digits_lt hR N, ?_⟩
  rcases Nat.eq_zero_or_pos N with rfl | hN
  · simp
  · have hlast := Nat.getLast_digit_ne_zero R hN.ne'
    have hne := Nat.digits_ne_nil_iff_ne_zero (b := R).mpr hN.ne'
    rw [digits_eq_reverse hR, List.head?_reverse, List.getLast?_eq_some_getLast hne]
    exact fun h => hlast (Option.some.inj h)

/-- Digits without a leading zero are the digits of the number they stand for. -/
theorem digits_num (hR : 2 ≤ R) (hD : ProperDigits R D) : digits R (num R D) = D := by
  obtain ⟨hlt, hhead⟩ := hD
  rw [digits_eq_reverse hR, num_eq_ofDigits, Nat.digits_ofDigits R hR _ fun d hd => hlt d (List.mem_reverse.mp hd),
    List.reverse_reverse]
  intro hne hlast
  rw [← List.getLast?_reverse, List.getLast?_eq_some_getLast hne] at hhead
  exact hhead (congrArg some hlast)

theorem length_digits_le (hR : 2 ≤ R) (hN : N < R ^ k) : (digits R N).length ≤ k := by
  rw [digits_eq_reverse hR, List.length_reverse]
  exact (Nat.digits_length_le_iff hR N).mpr hN

/-! ## Conversion between radixes (R120) -/

theorem num_convert (hS : 2 ≤ S) (R : Nat) (D : List Nat) : num S (convert R S D) = num R D := num_digits hS _

theorem convert_lt (hS : 2 ≤ S) (R : Nat) (D : List Nat) : ∀ d ∈ convert R S D, d < S := digits_lt hS _

/-- The digits that stand for the same number are the converted ones. -/
theorem convert_eq_of_num_eq (hS : 2 ≤ S) (hD : ProperDigits S D) (h : num S D = num R B) : convert R S B = D := by
  rw [convert, ← h, digits_num hS hD]

theorem convert_convert (hR : 2 ≤ R) (hS : 2 ≤ S) (hD : ProperDigits R D) : convert S R (convert R S D) = D :=
  convert_eq_of_num_eq hR hD (num_convert hS R D).symm

/-- Where `g` digits of the one radix fit `k` digits of the other, so do `q` times as many (R133). -/
theorem length_convert_le {g q : Nat} (hR : 2 ≤ R) (hS : 2 ≤ S) (hD : ∀ d ∈ D, d < R) (hfit : R ^ g ≤ S ^ k)
    (hlen : D.length ≤ g * q) : (convert R S D).length ≤ k * q := by
  refine length_digits_le hS ?_
  calc num R D < R ^ D.length := num_lt hR hD
    _ ≤ R ^ (g * q) := Nat.pow_le_pow_right (by omega) hlen
    _ ≤ S ^ (k * q) := by rw [pow_mul, pow_mul]; exact Nat.pow_le_pow_left hfit q

end Sys2Proof.Machine

namespace Sys2Proof

open Machine

/-- Settles O44: the model's digits are Mathlib's, which are the only ones without a leading zero. -/
theorem digitsAreUnique : Obligations.DigitsAreUnique := by
  unfold Obligations.DigitsAreUnique
  refine ⟨num_eq_sum, fun R N hR => ⟨properDigits_digits hR N, num_digits hR N, ?_⟩⟩
  rintro D hD rfl
  exact (digits_num hR hD).symm

end Sys2Proof

/-! The Big-Integer functions (R122 to R127, R132 to R134): payloads and texts as numbers, the leading zeros
that Base58 keeps, and what the four functions and their commands answer. -/

namespace Sys2Proof.Machine

variable {R S n z : Nat} {B D : List Nat} {P T out : List Byte} {table : List Byte} {a : Alphabets} {s : State}
  {i : Instr}

/-! ## Bytes as digits of radix 256 -/

theorem toNats_lt (P : List Byte) : ∀ d ∈ toNats P, d < 256 := by
  intro d hd
  obtain ⟨v, -, rfl⟩ := List.mem_map.mp hd
  exact v.isLt

theorem length_toNats (P : List Byte) : (toNats P).length = P.length := List.length_map _

theorem toNats_zeros_append (z : Nat) (P : List Byte) :
    toNats (List.replicate z 0x00#8 ++ P) = List.replicate z 0 ++ toNats P := by simp [toNats]

theorem ofNats_zeros_append (z : Nat) (D : List Nat) :
    ofNats (List.replicate z 0 ++ D) = List.replicate z 0x00#8 ++ ofNats D := by simp [ofNats]

theorem ofNats_toNats (P : List Byte) : ofNats (toNats P) = P := by
  rw [ofNats, toNats, List.map_map]
  exact List.map_id'' (fun v => by simp) P

theorem toNats_ofNats (hD : ∀ d ∈ D, d < 256) : toNats (ofNats D) = D := by
  rw [ofNats, toNats, List.map_map]
  refine (List.map_congr_left fun d hd => ?_).trans (List.map_id D)
  exact Nat.mod_eq_of_lt (hD d hd)

theorem properDigits_toNats (h : P.head? ≠ some 0x00#8) : ProperDigits 256 (toNats P) := by
  refine ⟨toNats_lt P, fun hzero => h ?_⟩
  rw [toNats, List.head?_map, Option.map_eq_some_iff] at hzero
  obtain ⟨v, hv, hv0⟩ := hzero
  rw [hv, BitVec.eq_of_toNat_eq (y := 0x00#8) hv0]

theorem symbols_zeros_append (table : List Byte) (z : Nat) (D : List Nat) :
    symbols table (List.replicate z 0 ++ D) = List.replicate z (symbol table 0) ++ symbols table D := by
  simp [symbols]

theorem lookupAll_symbols_of_lt (hlen : table.length = R) (hn : table.Nodup) (hD : ∀ d ∈ D, d < R) :
    lookupAll table (symbols table D) = some D := lookupAll_symbols hn (hlen ▸ hD)

/-! ## Leading zeros (R122) -/

theorem leadingZeros_cons (d : Nat) (D : List Nat) :
    leadingZeros (d :: D) = if d = 0 then leadingZeros D + 1 else 0 := by
  by_cases hd : d = 0
  · simp [leadingZeros, List.findIdx_cons, hd]
  · rw [if_neg hd, leadingZeros, List.findIdx_cons, bne_iff_ne.mpr hd]
    rfl

theorem leadingZeros_zeros_append (z : Nat) (hD : D.head? ≠ some 0) :
    leadingZeros (List.replicate z 0 ++ D) = z := by
  induction z with
  | zero =>
    cases D with
    | nil => rfl
    | cons d D => exact (leadingZeros_cons d D).trans (if_neg fun hd => hD (congrArg some hd))
  | succ z ih => rw [List.replicate_succ, List.cons_append, leadingZeros_cons, if_pos rfl, ih]

/-- Every digit sequence is its leading zeros and a sequence without any. -/
theorem exists_eq_zeros_append (D : List Nat) : ∃ z E, D = List.replicate z 0 ++ E ∧ E.head? ≠ some 0 := by
  induction D with
  | nil => exact ⟨0, [], by simp⟩
  | cons d D ih =>
    by_cases hd : d = 0
    · obtain ⟨z, E, rfl, hE⟩ := ih
      exact ⟨z + 1, E, by simp [hd, List.replicate_succ], hE⟩
    · exact ⟨0, d :: D, by simpa using hd⟩

/-- The conversion of Base58: the leading zeros stay in place, the rest is converted as a number (R122). -/
def convertAfterZeros (R S : Nat) (D : List Nat) : List Nat :=
  List.replicate (leadingZeros D) 0 ++ convert R S (D.drop (leadingZeros D))

theorem drop_leadingZeros_zeros_append (z : Nat) (hD : D.head? ≠ some 0) :
    (List.replicate z 0 ++ D).drop (leadingZeros (List.replicate z 0 ++ D)) = D := by
  rw [leadingZeros_zeros_append z hD, List.drop_left' List.length_replicate]

theorem convertAfterZeros_zeros_append (R S z : Nat) (hD : D.head? ≠ some 0) :
    convertAfterZeros R S (List.replicate z 0 ++ D) = List.replicate z 0 ++ convert R S D := by
  rw [convertAfterZeros, drop_leadingZeros_zeros_append z hD, leadingZeros_zeros_append z hD]

theorem convertAfterZeros_lt (hS : 2 ≤ S) (R : Nat) (D : List Nat) : ∀ d ∈ convertAfterZeros R S D, d < S := by
  intro d hd
  rcases List.mem_append.mp hd with hd | hd
  · have := List.eq_of_mem_replicate hd
    omega
  · exact convert_lt hS R _ d hd

/-- Converting back restores the digits, the leading zeros included (R132). -/
theorem convertAfterZeros_convertAfterZeros (hR : 2 ≤ R) (hS : 2 ≤ S) (hD : ∀ d ∈ D, d < R) :
    convertAfterZeros S R (convertAfterZeros R S D) = D := by
  obtain ⟨z, E, rfl, hE⟩ := exists_eq_zeros_append D
  have hproper : ProperDigits R E := ⟨fun d hd => hD d (List.mem_append_right _ hd), hE⟩
  have hhead : (convert R S E).head? ≠ some 0 := (properDigits_digits hS _).2
  rw [convertAfterZeros_zeros_append R S z hE, convertAfterZeros_zeros_append S R z hhead,
    convert_convert hR hS hproper]

/-! ## The four functions (R124 to R127) -/

theorem enc58_eq (a : Alphabets) (P : List Byte) :
    enc58 a P = .ok (symbols a.alpha58 (convertAfterZeros 256 58 (toNats P))) := by
  rw [convertAfterZeros, symbols_zeros_append]
  rfl

theorem dec58_of_lookup (h : lookupAll a.alpha58 T = some D) :
    dec58 a T = .ok (ofNats (convertAfterZeros 58 256 D)) := by
  rw [dec58, h, convertAfterZeros, ofNats_zeros_append]
  rfl

theorem dec62_of_lookup (h : lookupAll a.alpha62 T = some D) : dec62 a T = .ok (ofNats (convert 62 256 D)) := by
  rw [dec62, h]

theorem dec58_of_foreign (h : ∃ c ∈ T, c ∉ a.alpha58) : dec58 a T = .err .invalidCharacterError := by
  rw [dec58, lookupAll_none.mpr h]

theorem dec62_of_foreign (h : ∃ c ∈ T, c ∉ a.alpha62) : dec62 a T = .err .invalidCharacterError := by
  rw [dec62, lookupAll_none.mpr h]

/-- A payload after `z` zero bytes, and its accumulator need. -/
theorem enc58_zeros_append (a : Alphabets) (z : Nat) (hP : P.head? ≠ some 0x00#8) :
    enc58 a (List.replicate z 0x00#8 ++ P) =
        .ok (List.replicate z (symbol a.alpha58 0) ++ symbols a.alpha58 (convert 256 58 (toNats P))) ∧
      enc58Need (List.replicate z 0x00#8 ++ P) = (convert 256 58 (toNats P)).length := by
  obtain ⟨-, hhead⟩ := properDigits_toNats hP
  rw [enc58_eq, enc58Need, enc58Digits, toNats_zeros_append, convertAfterZeros_zeros_append _ _ z hhead,
    symbols_zeros_append, drop_leadingZeros_zeros_append z hhead]
  exact ⟨rfl, rfl⟩

/-- The text of digits after `z` zero symbols, and its accumulator need. -/
theorem dec58_zeros_append (hlen : a.alpha58.length = 58) (hn : a.alpha58.Nodup) (z : Nat) (hD : ProperDigits 58 D) :
    dec58 a (List.replicate z (symbol a.alpha58 0) ++ symbols a.alpha58 D) =
        .ok (List.replicate z 0x00#8 ++ ofNats (convert 58 256 D)) ∧
      dec58Need a (List.replicate z (symbol a.alpha58 0) ++ symbols a.alpha58 D) = (convert 58 256 D).length := by
  obtain ⟨hlt, hhead⟩ := hD
  have hdigits : ∀ d ∈ List.replicate z 0 ++ D, d < 58 := fun d hd => by
    rcases List.mem_append.mp hd with hd | hd
    · exact List.eq_of_mem_replicate hd ▸ by decide
    · exact hlt d hd
  have hlookup := lookupAll_symbols_of_lt hlen hn hdigits
  rw [← symbols_zeros_append, dec58_of_lookup hlookup, dec58Need, hlookup, convertAfterZeros_zeros_append _ _ z hhead,
    ofNats_zeros_append]
  refine ⟨rfl, ?_⟩
  show (convert 58 256 _).length = _
  rw [drop_leadingZeros_zeros_append z hhead]

theorem dec62Need_of_lookup (h : lookupAll a.alpha62 T = some D) : dec62Need a T = (convert 62 256 D).length := by
  rw [dec62Need, h]

theorem enc62_zeros_append (a : Alphabets) (z : Nat) (P : List Byte) :
    enc62 a (List.replicate z 0x00#8 ++ P) = enc62 a P := by
  rw [enc62, convert, toNats_zeros_append, num_replicate_zero_append, enc62, convert]

/-! ## Lengths (R133) -/

/-- `r² > 256` and `r¹¹ > 2⁶⁴` for every radix from 58 on. -/
theorem length_convert_bytes_le (hS : 58 ≤ S) (hD : ∀ d ∈ D, d < 256) :
    (convert 256 S D).length ≤ 2 * D.length ∧ (convert 256 S D).length ≤ 11 * ((D.length + 7) / 8) := by
  have hfit2 : 256 ^ 1 ≤ S ^ 2 := (by decide : 256 ^ 1 ≤ 58 ^ 2).trans (Nat.pow_le_pow_left hS 2)
  have hfit11 : 256 ^ 8 ≤ S ^ 11 := (by decide : 256 ^ 8 ≤ 58 ^ 11).trans (Nat.pow_le_pow_left hS 11)
  exact ⟨length_convert_le (by decide) (by omega) hD hfit2 (by omega),
    length_convert_le (by decide) (by omega) hD hfit11 (by omega)⟩

/-- `r ≤ 256` and `r⁴ < 2²⁴` for every radix up to 62. -/
theorem length_convert_symbols_le (hR : 2 ≤ R) (hR62 : R ≤ 62) (hD : ∀ d ∈ D, d < R) :
    (convert R 256 D).length ≤ D.length ∧ (convert R 256 D).length ≤ 3 * ((D.length + 3) / 4) := by
  have hfit1 : R ^ 1 ≤ 256 ^ 1 := Nat.pow_le_pow_left (by omega) 1
  have hfit3 : R ^ 4 ≤ 256 ^ 3 := (Nat.pow_le_pow_left hR62 4).trans (by decide)
  refine ⟨?_, length_convert_le hR (by decide) hD hfit3 (by omega)⟩
  simpa using length_convert_le (k := 1) (q := D.length) hR (by decide) hD hfit1 (by omega)

theorem length_of_enc58 (hP : P.head? ≠ some 0x00#8) (h : enc58 a (List.replicate z 0x00#8 ++ P) = .ok out) :
    out.length = z + (convert 256 58 (toNats P)).length := by
  obtain ⟨hout, -⟩ := enc58_zeros_append a z hP
  obtain rfl := Result.ok.inj (h.symm.trans hout)
  simp [symbols]

/-- A text that `dec_58` takes is, after its zero symbols, the symbols of digits. -/
theorem length_of_dec58 (hlen : a.alpha58.length = 58) (hn : a.alpha58.Nodup)
    (hT : T.head? ≠ some (symbol a.alpha58 0))
    (h : dec58 a (List.replicate z (symbol a.alpha58 0) ++ T) = .ok out) :
    ∃ D, D.length = T.length ∧ (∀ d ∈ D, d < 58) ∧ out.length = z + (convert 58 256 D).length := by
  have hvalid : ∀ c ∈ T, c ∈ a.alpha58 := fun c hc => by
    by_contra hforeign
    cases h.symm.trans (dec58_of_foreign ⟨c, List.mem_append_right _ hc, hforeign⟩)
  obtain ⟨D, hD⟩ := exists_lookupAll hvalid
  obtain ⟨rfl, hlt⟩ := lookupAll_eq hD
  have hhead : D.head? ≠ some 0 := fun hzero => hT (by rw [List.head?_map, hzero]; rfl)
  rw [hlen] at hlt
  obtain ⟨hout, -⟩ := dec58_zeros_append hlen hn z ⟨hlt, hhead⟩
  obtain rfl := Result.ok.inj (h.symm.trans hout)
  exact ⟨D, by simp, hlt, by simp [ofNats]⟩

theorem length_of_dec62 (hlen : a.alpha62.length = 62) (h : dec62 a T = .ok out) :
    ∃ D, D.length = T.length ∧ (∀ d ∈ D, d < 62) ∧ out.length = (convert 62 256 D).length := by
  have hvalid : ∀ c ∈ T, c ∈ a.alpha62 := fun c hc => by
    by_contra hforeign
    cases h.symm.trans (dec62_of_foreign ⟨c, hc, hforeign⟩)
  obtain ⟨D, hD⟩ := exists_lookupAll hvalid
  obtain ⟨-, hlt⟩ := lookupAll_eq hD
  obtain rfl := Result.ok.inj (h.symm.trans (dec62_of_lookup hD))
  exact ⟨D, lookupAll_length hD, hlen ▸ hlt, by simp [ofNats]⟩

/-! ## The commands (R80) -/

/-- A big-integer command whose result and accumulator fit (R83, R86). -/
theorem exec_expectOk_of_need (hf : functionOf i s.cfg.alphabets s.input = .ok out)
    (hneed : accNeedOf i s.cfg.alphabets s.input = n) (hfits : s.Fits n out.length) :
    ∃ t, exec i s = .next t ∧ t.ExpectOk out :=
  ⟨_, exec_of_ok hf (hneed ▸ hfits), State.succeed_expectOk _ out⟩

end Sys2Proof.Machine

namespace Sys2Proof

open Machine

/-- Settles O24: the digits that stand for the payload's number are the converted ones. -/
theorem enc58WritesPrefixAndDigits : Obligations.Enc58WritesPrefixAndDigits := by
  unfold Obligations.Enc58WritesPrefixAndDigits
  refine ⟨by decide, fun s z P D _ hin hP hD hnum hfits => ?_, fun s => exec_of_noError fun k h => by cases h⟩
  have hconvert : convert 256 58 (toNats P) = D := convert_eq_of_num_eq (by decide) hD hnum
  obtain ⟨hout, hneed⟩ := enc58_zeros_append s.cfg.alphabets z hP
  rw [hconvert, ← hin] at hout hneed
  exact exec_expectOk_of_need (i := .enc58) hout hneed (by simpa [symbols] using hfits)

/-- Settles O25: the bytes that stand for the text's number are the converted digits. -/
theorem dec58WritesPrefixAndBytes : Obligations.Dec58WritesPrefixAndBytes := by
  unfold Obligations.Dec58WritesPrefixAndBytes
  refine ⟨by decide, fun s z D B hwf hin hD hB hnum hfits => ?_, fun s hin hforeign => ?_⟩
  · obtain ⟨-, -, ⟨hlen, hn⟩, -⟩ := alphabetsOk_parts hwf.1
    have hconvert : convert 58 256 D = toNats B := convert_eq_of_num_eq (by decide) (properDigits_toNats hB) hnum
    obtain ⟨hout, hneed⟩ := dec58_zeros_append hlen hn z hD
    rw [hconvert, symbols, ← hin] at hout hneed
    rw [ofNats_toNats] at hout
    rw [length_toNats] at hneed
    exact exec_expectOk_of_need (i := .dec58) hout hneed (by simpa using hfits)
  · exact exec_expectErr (i := .dec58) hin (dec58_of_foreign hforeign)

/-- Settles O26: the digits that stand for the payload's number are the converted ones. -/
theorem enc62WritesDigits : Obligations.Enc62WritesDigits := by
  unfold Obligations.Enc62WritesDigits
  refine ⟨by decide, fun s D _ hD hnum hfits => ?_, fun s => exec_of_noError fun k h => by cases h⟩
  have hconvert : convert 256 62 (toNats s.input) = D := convert_eq_of_num_eq (by decide) hD hnum
  have hout : enc62 s.cfg.alphabets s.input = .ok (symbols s.cfg.alphabets.alpha62 D) := by rw [enc62, hconvert]
  have hneed : enc62Need s.input = D.length := by rw [enc62Need, hconvert]
  exact exec_expectOk_of_need (i := .enc62) hout hneed (by simpa [symbols] using hfits)

/-- Settles O27: the bytes that stand for the text's number are the converted digits, leading zero symbols or not. -/
theorem dec62WritesBytes : Obligations.Dec62WritesBytes := by
  unfold Obligations.Dec62WritesBytes
  refine ⟨by decide, fun s D B hwf hD hin hB hnum hfits => ?_, fun s hin hforeign => ?_⟩
  · obtain ⟨-, -, -, ⟨hlen, hn⟩, -⟩ := alphabetsOk_parts hwf.1
    have hlookup : lookupAll s.cfg.alphabets.alpha62 s.input = some D := hin ▸ lookupAll_symbols_of_lt hlen hn hD
    have hconvert : convert 62 256 D = toNats B := convert_eq_of_num_eq (by decide) (properDigits_toNats hB) hnum
    have hout := dec62_of_lookup hlookup
    have hneed := dec62Need_of_lookup hlookup
    rw [hconvert, ofNats_toNats] at hout
    rw [hconvert, length_toNats] at hneed
    exact exec_expectOk_of_need (i := .dec62) hout hneed hfits
  · exact exec_expectErr (i := .dec62) hin (dec62_of_foreign hforeign)

/-- Settles O47: the digits of the text, and of the payload, come back from the conversion and its inverse. -/
theorem base58RoundTrip : Obligations.Base58RoundTrip := by
  unfold Obligations.Base58RoundTrip
  intro a ha
  obtain ⟨-, -, ⟨hlen, hn⟩, -⟩ := alphabetsOk_parts ha
  refine ⟨fun P => ⟨_, enc58_eq a P, ?_⟩, fun T hT => ?_⟩
  · rw [dec58_of_lookup (lookupAll_symbols_of_lt hlen hn (convertAfterZeros_lt (by decide) 256 _)),
      convertAfterZeros_convertAfterZeros (by decide) (by decide) (toNats_lt P), ofNats_toNats]
  · obtain ⟨D, hlookup⟩ := exists_lookupAll hT
    obtain ⟨rfl, hD⟩ := lookupAll_eq hlookup
    refine ⟨_, dec58_of_lookup hlookup, ?_⟩
    rw [enc58_eq, toNats_ofNats (convertAfterZeros_lt (by decide) 58 D),
      convertAfterZeros_convertAfterZeros (by decide) (by decide) (hlen ▸ hD), symbols]

/-- Settles O48: leading zero bytes do not change the number, and the rest are the number's only digits. -/
theorem base62RoundTripDropsZeros : Obligations.Base62RoundTripDropsZeros := by
  unfold Obligations.Base62RoundTripDropsZeros
  intro a z P ha hP
  obtain ⟨-, -, -, ⟨hlen, hn⟩, -⟩ := alphabetsOk_parts ha
  refine ⟨enc62_zeros_append a z P, _, rfl, ?_⟩
  rw [dec62_of_lookup (lookupAll_symbols_of_lt hlen hn (convert_lt (by decide) 256 _)),
    convert_convert (by decide) (by decide) (properDigits_toNats hP), ofNats_toNats]

/-- Settles O52: each result is the zeros and a conversion, whose length the powers of the radixes bound. -/
theorem bigIntegerLengthBounds : Obligations.BigIntegerLengthBounds := by
  unfold Obligations.BigIntegerLengthBounds
  intro a z P T out ha
  obtain ⟨-, -, ⟨hlen58, hn58⟩, ⟨hlen62, hn62⟩, -⟩ := alphabetsOk_parts ha
  refine ⟨fun h hP => ?_, fun h => ?_, fun h hT => ?_, fun h => ?_⟩
  · have hbound := length_convert_bytes_le (S := 58) (by decide) (toNats_lt P)
    rw [length_toNats] at hbound
    rw [length_of_enc58 hP h]
    omega
  · have hbound := length_convert_bytes_le (S := 62) (by decide) (toNats_lt P)
    rw [length_toNats] at hbound
    obtain rfl := Result.ok.inj h
    simpa [symbols] using hbound
  · obtain ⟨D, hlen, hD, hout⟩ := length_of_dec58 hlen58 hn58 hT h
    have hbound := length_convert_symbols_le (by decide) (by decide) hD
    omega
  · obtain ⟨D, hlen, hD, hout⟩ := length_of_dec62 hlen62 h
    have hbound := length_convert_symbols_le (by decide) (by decide) hD
    omega

end Sys2Proof

/-! The Big-Integer datapaths (R128 to R131): the accumulator is at every time the digits of the number taken in so
far, since one step multiplies the number it stands for and adds. -/

namespace Sys2Proof.Machine

variable {m R k c d N : Nat} {acc D : List Nat} {r : BigRegs}

/-! ## The inner loop and the flush -/

theorem flushCarry_eq_digits (hR : 2 ≤ R) (c : Nat) : flushCarry R c = Nat.digits R c := by
  rw [← List.reverse_inj, ← digits_eq_reverse hR]
  rfl

theorem bigStep_acc (hR : 2 ≤ R) (m : Nat) (r : BigRegs) (d : Nat) :
    (bigStep m R r d).acc = (mulAdd m R r.acc d).1 ++ Nat.digits R (mulAdd m R r.acc d).2 := by
  rw [← flushCarry_eq_digits hR]
  rfl

theorem mulAdd_length (m R : Nat) (acc : List Nat) (c : Nat) : (mulAdd m R acc c).1.length = acc.length := by
  induction acc generalizing c with
  | nil => rfl
  | cons x acc ih => exact congrArg Nat.succ (ih _)

theorem mulAdd_lt (hR : 0 < R) (m : Nat) (acc : List Nat) (c : Nat) : ∀ x ∈ (mulAdd m R acc c).1, x < R := by
  induction acc generalizing c with
  | nil => simp [mulAdd]
  | cons x acc ih => exact List.forall_mem_cons.mpr ⟨Nat.mod_lt _ hR, ih _⟩

/-- `t ≤ (R - 1) * m + (m - 1)`, so `t div R` is below `m` again (R131). -/
theorem mulAdd_carry_lt (hacc : ∀ x ∈ acc, x < R) (hc : c < m) : (mulAdd m R acc c).2 < m := by
  induction acc generalizing c with
  | nil => exact hc
  | cons x acc ih =>
    rw [List.forall_mem_cons] at hacc
    obtain ⟨hx, hacc⟩ := hacc
    refine ih hacc (Nat.div_lt_of_lt_mul ?_)
    calc x * m + c < x * m + m := by omega
      _ = (x + 1) * m := (Nat.succ_mul x m).symm
      _ ≤ R * m := Nat.mul_le_mul_right m hx

theorem bigStep_acc_length_le (hR : 2 ≤ R) (hfit : m ≤ R ^ k) (hacc : ∀ x ∈ r.acc, x < R) (hd : d < m) :
    (bigStep m R r d).acc.length ≤ r.acc.length + k := by
  rw [bigStep_acc hR, List.length_append, mulAdd_length, Nat.add_le_add_iff_left, Nat.digits_length_le_iff hR]
  exact (mulAdd_carry_lt hacc hd).trans_le hfit

theorem le_bigStep_acc_length (hR : 2 ≤ R) (m : Nat) (r : BigRegs) (d : Nat) :
    r.acc.length ≤ (bigStep m R r d).acc.length := by
  rw [bigStep_acc hR, List.length_append, mulAdd_length]
  exact Nat.le_add_right _ _

theorem bigStep_acc_lt (hR : 2 ≤ R) (m : Nat) (r : BigRegs) (d : Nat) : ∀ x ∈ (bigStep m R r d).acc, x < R := by
  intro x hx
  rw [bigStep_acc hR, List.mem_append] at hx
  rcases hx with hx | hx
  · exact mulAdd_lt (by omega) m r.acc d x hx
  · exact Nat.digits_lt_base hR hx

/-- One step on digits in range, `m` the factor: R131 in either direction. -/
theorem bigStep_bounds (r : BigRegs) (hR : 2 ≤ R) (hfit : m ≤ R ^ k) (hacc : ∀ x ∈ r.acc, x < R) (hd : d < m) :
    (mulAdd m R r.acc d).2 ≤ m - 1 ∧ r.acc.length ≤ (bigStep m R r d).acc.length ∧
      (bigStep m R r d).acc.length ≤ r.acc.length + k ∧ ∀ x ∈ (bigStep m R r d).acc, x < R :=
  ⟨Nat.le_sub_one_of_lt (mulAdd_carry_lt hacc hd), le_bigStep_acc_length hR m r d,
    bigStep_acc_length_le hR hfit hacc hd, bigStep_acc_lt hR m r d⟩

/-! ## The number in the accumulator (R130) -/

/-- The inner loop and the flush write the digits of `N * m + c`, none of them a leading zero. -/
theorem mulAdd_digits (hR : 2 ≤ R) (hm : 0 < m) (N c : Nat) :
    (mulAdd m R (Nat.digits R N) c).1 ++ Nat.digits R (mulAdd m R (Nat.digits R N) c).2 =
      Nat.digits R (N * m + c) := by
  induction N using Nat.strong_induction_on generalizing c with
  | _ N ih =>
    rcases Nat.eq_zero_or_pos N with rfl | hN
    · simp [mulAdd]
    · have hsplit : N * m + c = N % R * m + c + R * (N / R * m) := by
        conv_lhs => rw [← Nat.mod_add_div N R]
        ring
      have hmod : (N % R * m + c) % R = (N * m + c) % R := by rw [hsplit, Nat.add_mul_mod_self_left]
      have hdiv : N / R * m + (N % R * m + c) / R = (N * m + c) / R := by
        rw [hsplit, Nat.add_mul_div_left _ _ (by omega), Nat.add_comm]
      rw [Nat.digits_def' hR hN, Nat.digits_def' hR (Nat.add_pos_left (Nat.mul_pos hN hm) c), ← hmod, ← hdiv,
        ← ih _ (Nat.div_lt_self hN hR)]
      rfl

theorem bigStep_acc_digits (hR : 2 ≤ R) (hm : 0 < m) (hr : r.acc = Nat.digits R N) (d : Nat) :
    (bigStep m R r d).acc = Nat.digits R (N * m + d) := by
  rw [bigStep_acc hR, hr, mulAdd_digits hR hm]

theorem foldl_bigStep_acc (hR : 2 ≤ R) (hm : 0 < m) (D : List Nat) (hr : r.acc = Nat.digits R N) :
    (D.foldl (bigStep m R) r).acc = Nat.digits R (N * m ^ D.length + num m D) := by
  induction D generalizing r N with
  | nil => simpa using hr
  | cons d D ih =>
    have hnumber : (N * m + d) * m ^ D.length + num m D = N * m ^ (D.length + 1) + (d * m ^ D.length + num m D) := by
      ring
    rw [List.foldl_cons, ih (bigStep_acc_digits hR hm hr d), hnumber]
    rfl

theorem foldl_bigStep_z (m R : Nat) (D : List Nat) (r : BigRegs) : (D.foldl (bigStep m R) r).z = r.z := by
  induction D generalizing r with
  | nil => rfl
  | cons d D ih => exact ih _

/-! ## The main loop (R128, R129) -/

theorem countZeros_eq (z : Nat) (D : List Nat) : countZeros z D = z + leadingZeros D := by
  induction D generalizing z with
  | nil => rfl
  | cons d D ih =>
    rw [countZeros, leadingZeros_cons]
    split
    next => rw [ih, Nat.add_right_comm, Nat.add_assoc]
    next => rfl

/-- How many zero digits the main loop skips. -/
def skippedZeros (keepZeros : Bool) (D : List Nat) : Nat := if keepZeros then leadingZeros D else 0

theorem bigLoop_eq (m R : Nat) (keepZeros : Bool) (D : List Nat) :
    bigLoop m R keepZeros D =
      (D.drop (skippedZeros keepZeros D)).foldl (bigStep m R) (BigRegs.start (skippedZeros keepZeros D)) := by
  simp only [bigLoop, skippedZeros, countZeros_eq, Nat.zero_add]

theorem bigLoop_z (m R : Nat) (keepZeros : Bool) (D : List Nat) :
    (bigLoop m R keepZeros D).z = skippedZeros keepZeros D := by
  rw [bigLoop_eq, foldl_bigStep_z]
  rfl

/-- Most significant first, the accumulator ends as the converted digits. -/
theorem bigLoop_acc_reverse (hR : 2 ≤ R) (hm : 0 < m) (keepZeros : Bool) (D : List Nat) :
    (bigLoop m R keepZeros D).acc.reverse = convert m R (D.drop (skippedZeros keepZeros D)) := by
  rw [bigLoop_eq, foldl_bigStep_acc (N := 0) hR hm _ (by simp [BigRegs.start]), Nat.zero_mul, Nat.zero_add,
    ← digits_eq_reverse hR, convert]

theorem bigLoop_acc_length (hR : 2 ≤ R) (hm : 0 < m) (keepZeros : Bool) (D : List Nat) :
    (bigLoop m R keepZeros D).acc.length = (convert m R (D.drop (skippedZeros keepZeros D))).length := by
  rw [← bigLoop_acc_reverse hR hm, List.length_reverse]

theorem bigEncode_eq (hR : 2 ≤ R) (keepZeros : Bool) (table P : List Byte) :
    bigEncode R keepZeros table P =
      List.replicate (skippedZeros keepZeros (toNats P)) (symbol table 0) ++
        symbols table (convert 256 R ((toNats P).drop (skippedZeros keepZeros (toNats P)))) := by
  rw [bigEncode, bigLoop_z, bigLoop_acc_reverse hR (by decide)]

theorem bigDecode_of_lookup (hR : 0 < R) (keepZeros : Bool) {table T : List Byte} (h : lookupAll table T = some D) :
    bigDecode R keepZeros table T =
      .ok (List.replicate (skippedZeros keepZeros D) 0x00#8 ++
        ofNats (convert R 256 (D.drop (skippedZeros keepZeros D)))) := by
  rw [← bigLoop_acc_reverse (by decide) hR, ← bigLoop_z R 256, bigDecode, h]

theorem bigDecode_of_lookup_none (R : Nat) (keepZeros : Bool) {table T : List Byte} (h : lookupAll table T = none) :
    bigDecode R keepZeros table T = .err .invalidCharacterError := by
  rw [bigDecode, h]

end Sys2Proof.Machine

namespace Sys2Proof

open Machine

/-- Settles O55: the loop's accumulator holds the converted digits, and `Z` the zeros it skipped. -/
theorem bigEncoderDatapath : Obligations.BigEncoderDatapath := by
  unfold Obligations.BigEncoderDatapath
  intro a P
  rw [bigEncode_eq (by decide), bigEncode_eq (by decide)]
  exact ⟨rfl, rfl, bigLoop_acc_length (by decide) (by decide) true _,
    bigLoop_acc_length (by decide) (by decide) false _⟩

/-- Settles O56: a foreign character fails both; on valid texts the accumulator holds the converted digits. -/
theorem bigDecoderDatapath : Obligations.BigDecoderDatapath := by
  unfold Obligations.BigDecoderDatapath
  intro a T
  refine ⟨?_, ?_, fun D h => ?_, fun D h => ?_⟩
  · cases h : lookupAll a.alpha58 T with
    | none => rw [bigDecode_of_lookup_none 58 true h, dec58, h]
    | some D =>
      rw [bigDecode_of_lookup (by decide) true h, dec58, h]
      rfl
  · cases h : lookupAll a.alpha62 T with
    | none => rw [bigDecode_of_lookup_none 62 false h, dec62, h]
    | some D =>
      rw [bigDecode_of_lookup (by decide) false h, dec62_of_lookup h]
      rfl
  · rw [bigLoop_acc_length (by decide) (by decide), accNeedOf, dec58Need, h]
    rfl
  · rw [bigLoop_acc_length (by decide) (by decide), accNeedOf, dec62Need_of_lookup h]
    rfl

/-- Settles O59: the carry stays below the factor, which has at most 2 digits on encode and 1 byte on decode. -/
theorem bigRegisterBounds : Obligations.BigRegisterBounds := by
  unfold Obligations.BigRegisterBounds
  intro r acc d hr
  have hrange : 58 ≤ r ∧ r ≤ 62 := by
    simp only [List.mem_cons, List.not_mem_nil, or_false] at hr
    omega
  obtain ⟨hlow, hhigh⟩ := hrange
  have hfit : 256 ≤ r ^ 2 := (by decide : 256 ≤ 58 ^ 2).trans (Nat.pow_le_pow_left hlow 2)
  have hfit' : r ≤ 256 ^ 1 := by omega
  exact ⟨fun hacc hd => bigStep_bounds ⟨0, acc, 0⟩ (by omega) hfit hacc (by omega),
    fun hacc hd => bigStep_bounds ⟨0, acc, 0⟩ (by decide) hfit' hacc (by omega)⟩

end Sys2Proof

/-! The Block-Radix-85 functions and commands (R141, R142, R145, R147): a block's five digits and a group's four bytes,
and that the decoder gives the filled payload back. -/

namespace Sys2Proof.Machine

variable {q u v d : Nat} {P T out : List Byte} {D : List Nat} {a : Alphabets}

/-! ## A block and its digits (R141) -/

/-- The value of block `q` of a payload, a byte past the end being 0. -/
def blockAt (P : List Byte) (q : Nat) : Nat :=
  blockValue (P.getD (4 * q) 0x00#8) (P.getD (4 * q + 1) 0x00#8) (P.getD (4 * q + 2) 0x00#8) (P.getD (4 * q + 3) 0x00#8)

theorem blockAt_lt (P : List Byte) (q : Nat) : blockAt P q < 2 ^ 32 := blockValue_lt _ _ _ _

theorem blockAt_zeroFilled (P : List Byte) (q : Nat) : blockAt (zeroFilled P) q = blockAt P q := by
  have hbyte : ∀ i, (zeroFilled P).getD i 0x00#8 = P.getD i 0x00#8 := zeroFilled_getD P
  simp only [blockAt, hbyte]

theorem blockDigits_lt (v : Nat) : ∀ d ∈ blockDigits v, d < 85 := by
  simp [blockDigits, Nat.mod_lt]

theorem exists_blockDigits_eq (hv : v < 2 ^ 32) :
    ∃ d0 d1 d2 d3 d4, blockDigits v = [d0, d1, d2, d3, d4] ∧ (d0 < 85 ∧ d1 < 85 ∧ d2 < 85 ∧ d3 < 85 ∧ d4 < 85) ∧
      d0 * 85 ^ 4 + d1 * 85 ^ 3 + d2 * 85 ^ 2 + d3 * 85 + d4 = v := by
  refine ⟨_, _, _, _, _, rfl, ?_, blockDigits_value v hv⟩
  simp [Nat.mod_lt]

theorem payloadDigits_lt (P : List Byte) : ∀ d ∈ payloadDigits P, d < 85 := by
  fun_induction payloadDigits P with
  | case1 b0 b1 b2 b3 rest ih => exact List.forall_mem_append.mpr ⟨blockDigits_lt _, ih⟩
  | case2 => simp

/-- Symbol `u` of block `q` is the table's entry at that digit of the block. -/
theorem enc85_getElem? (htable : a.alpha85.length = 85) (h : enc85 a P = .ok out) (hq : 4 * q < P.length) (hu : u < 5)
    (hd : (blockDigits (blockAt P q))[u]? = some d) : out[5 * q + u]? = a.alpha85[d]? := by
  obtain rfl := Result.ok.inj h
  have hdigit : (payloadDigits (zeroFilled P))[5 * q + u]? = some d := by
    rw [payloadDigits_getElem? _ _ (zeroFilled_length P) q (by omega) u hu, ← hd, ← blockAt_zeroFilled]
    rfl
  have hlt : d < a.alpha85.length := htable ▸ blockDigits_lt _ d (List.mem_of_getElem? hd)
  rw [symbols, List.getElem?_map, hdigit, getElem?_symbol hlt, Option.map_some]

/-! ## A group and its bytes (R142) -/

theorem valueBytes_getElem? (v : Nat) (hu : u < 4) :
    (valueBytes v)[u]? = some (BitVec.ofNat 8 (v / 2 ^ (8 * (3 - u)))) := by
  match u, hu with
  | 0, _ | 1, _ | 2, _ => simp [valueBytes, Nat.shiftRight_eq_div_pow]
  | 3, _ => simp [valueBytes]

/-- The four bytes of a block value are the block (R44). -/
theorem valueBytes_blockValue (b0 b1 b2 b3 : Byte) : valueBytes (blockValue b0 b1 b2 b3) = [b0, b1, b2, b3] := by
  have h0 := b0.isLt
  have h1 := b1.isLt
  have h2 := b2.isLt
  have h3 := b3.isLt
  have hbyte : ∀ (n : Nat) (b : Byte), n % 256 = b.toNat → BitVec.ofNat 8 n = b := fun n b h =>
    BitVec.eq_of_toNat_eq (by rwa [BitVec.toNat_ofNat])
  simp only [valueBytes, blockValue, Nat.shiftRight_eq_div_pow]
  rw [hbyte _ b0 (by omega), hbyte _ b1 (by omega), hbyte _ b2 (by omega), hbyte _ b3 (by omega)]

/-- The digits of a block value do not wrap (R145). -/
theorem foldl_accumulate85_blockDigits (hv : v < 2 ^ 32) : (blockDigits v).foldl accumulate85 0 = v := by
  obtain ⟨d0, d1, d2, d3, d4, hdigits, -, hvalue⟩ := exists_blockDigits_eq hv
  rw [hdigits, accumulate85_group, hvalue, Nat.mod_eq_of_lt hv]

/-- Whole blocks come back from their digits (R147). -/
theorem textBytes_payloadDigits (hP : P.length % 4 = 0) : textBytes (payloadDigits P) = P := by
  fun_induction payloadDigits P with
  | case1 b0 b1 b2 b3 rest ih =>
    have hrest : rest.length % 4 = 0 := by simpa [Nat.add_assoc] using hP
    show valueBytes ((blockDigits (blockValue b0 b1 b2 b3)).foldl accumulate85 0) ++ textBytes (payloadDigits rest) = _
    rw [foldl_accumulate85_blockDigits (blockValue_lt b0 b1 b2 b3), valueBytes_blockValue, ih hrest]
    rfl
  | case2 P hshort =>
    match P with
    | [] => rfl
    | [_] | [_, _] | [_, _, _] => simp at hP
    | b0 :: b1 :: b2 :: b3 :: rest => exact absurd rfl (hshort b0 b1 b2 b3 rest)

theorem zeroFilled_eq (P : List Byte) : zeroFilled P = P ++ List.replicate ((4 - P.length % 4) % 4) 0x00#8 := by
  have hfill : 4 * ceilDiv P.length 4 - P.length = (4 - P.length % 4) % 4 := by
    unfold ceilDiv
    omega
  rw [zeroFilled, hfill]

/-! ## What the decoder answers (R142, R146) -/

/-- A table that meets R30 holds no whitespace. -/
theorem isWhitespace_eq_false_of_mem (ha : alphabetsOk a = true) {c : Byte} (hc : c ∈ a.alpha85) :
    isWhitespace c = false := by
  have hrange : 0x21 ≤ c.toNat := by
    simp only [alphabetsOk, alphabetOk, Bool.and_eq_true, List.all_eq_true, decide_eq_true_eq] at ha
    obtain ⟨⟨⟨-, -, hprintable⟩, -⟩, -⟩ := ha
    exact (hprintable c hc).1
  have hne : ∀ w : Byte, w.toNat < 0x21 → c ≠ w := by
    rintro w hw rfl
    omega
  simp [isWhitespace, hne]

theorem nonWhitespace_symbols (ha : alphabetsOk a = true) (hD : ∀ d ∈ D, d < 85) :
    nonWhitespace (symbols a.alpha85 D) = symbols a.alpha85 D := by
  obtain ⟨-, -, -, -, -, ⟨htable, -⟩, -⟩ := alphabetsOk_parts ha
  refine List.filter_eq_self.mpr fun c hc => ?_
  obtain ⟨d, hd, rfl⟩ := List.mem_map.mp hc
  have hmem := List.mem_of_getElem? (getElem?_symbol (htable ▸ hD d hd))
  rw [isWhitespace_eq_false_of_mem ha hmem, Bool.not_false]

theorem dec85_of_length (h : (nonWhitespace T).length % 5 ≠ 0) : dec85 a T = .err .lengthError := by
  rw [dec85, cleaned_eq_nonWhitespace, if_pos h]

theorem dec85_of_foreign (h : (nonWhitespace T).length % 5 = 0) (hc : ∃ c ∈ nonWhitespace T, c ∉ a.alpha85) :
    dec85 a T = .err .invalidCharacterError := by
  rw [dec85, cleaned_eq_nonWhitespace, if_neg (by omega), lookupAll_none.mpr hc]

theorem dec85_of_symbols (ha : alphabetsOk a = true) (hD : ∀ d ∈ D, d < 85) (hlen : D.length % 5 = 0)
    (hT : nonWhitespace T = symbols a.alpha85 D) : dec85 a T = .ok (textBytes D) := by
  obtain ⟨-, -, -, -, -, ⟨htable, hn⟩, -⟩ := alphabetsOk_parts ha
  rw [dec85, cleaned_eq_nonWhitespace, hT, if_neg (by simpa [symbols] using hlen),
    lookupAll_symbols_of_lt htable hn hD]

end Sys2Proof.Machine

namespace Sys2Proof

open Machine

/-- Settles O28: the symbols of a block are the table's entries at the five digits of its value. -/
theorem enc85WritesBlockDigits : Obligations.Enc85WritesBlockDigits := by
  unfold Obligations.Enc85WritesBlockDigits
  refine ⟨by decide, fun s hwf hfits => ?_, fun s => exec_of_noError fun k h => by cases h⟩
  obtain ⟨-, -, -, -, -, ⟨htable, -⟩, -⟩ := alphabetsOk_parts hwf.1
  obtain ⟨out, hout⟩ : ∃ out, enc85 s.cfg.alphabets s.input = .ok out := ⟨_, rfl⟩
  have hlen : out.length = 5 * ((s.ilen + 3) / 4) := by rw [length_of_enc85 hout, s.input_length]
  refine ⟨_, exec_of_ok (i := .enc85) hout (hlen ▸ hfits), rfl, hlen, fun q hq => ?_⟩
  obtain ⟨d0, d1, d2, d3, d4, hdigits, ⟨h0, h1, h2, h3, h4⟩, hvalue⟩ := exists_blockDigits_eq (blockAt_lt s.input q)
  have hread : ∀ u d, u < 5 → [d0, d1, d2, d3, d4][u]? = some d →
      (Memory.ofBytes out).read (5 * q + u) = s.cfg.alphabets.alpha85[d]? := fun u d hu hd => by
    rw [Memory.read_ofBytes, enc85_getElem? htable hout (by rwa [s.input_length]) hu (hdigits ▸ hd)]
  exact ⟨d0, d1, d2, d3, d4, h0, h1, h2, h3, h4, hvalue, hread 0 d0 (by decide) rfl, hread 1 d1 (by decide) rfl,
    hread 2 d2 (by decide) rfl, hread 3 d3 (by decide) rfl, hread 4 d4 (by decide) rfl⟩

/-- Settles O29: the cleaned length decides first, then the lookups, and each group is its value's four bytes. -/
theorem dec85WritesGroupBytes : Obligations.Dec85WritesGroupBytes := by
  unfold Obligations.Dec85WritesGroupBytes
  refine ⟨by decide, fun s hin hlen => ?_, fun s hin hlen hforeign => ?_, fun s D Q hwf hD hlen hT hfits => ?_⟩
  · exact exec_expectErr (i := .dec85) hin (dec85_of_length hlen)
  · exact exec_expectErr (i := .dec85) hin (dec85_of_foreign hlen hforeign)
  · have hout : dec85 s.cfg.alphabets s.input = .ok (textBytes D) := dec85_of_symbols hwf.1 hD (by omega) hT
    have hbytes : (textBytes D).length = 4 * Q := textBytes_length Q D hlen
    refine ⟨_, exec_of_ok (i := .dec85) hout (hbytes ▸ hfits), rfl, hbytes, fun q u hq hu => ?_⟩
    rw [State.succeed_obuf, Memory.read_ofBytes, textBytes_getElem? D Q hlen q hq u hu, valueBytes_getElem? _ hu]

/-- Settles O49: the filled payload is whole blocks, and they come back from their digits. -/
theorem base85RoundTripFillsBlock : Obligations.Base85RoundTripFillsBlock := by
  unfold Obligations.Base85RoundTripFillsBlock
  intro a P ha
  have hfilled := zeroFilled_length P
  have hdigits := payloadDigits_length _ _ hfilled
  have hlt := payloadDigits_lt (zeroFilled P)
  refine ⟨_, rfl, ?_⟩
  rw [dec85_of_symbols ha hlt (by omega) (nonWhitespace_symbols ha hlt), textBytes_payloadDigits (by omega),
    zeroFilled_eq]

end Sys2Proof

/-! The Block-Radix-85 datapaths (R143, R144): the encoder's `VAL` gathers a block and gives its digits from the last to
the first; the decoder's second pass takes the digits of the cleaned text one by one. -/

namespace Sys2Proof.Machine

variable {n : Nat} {P table : List Byte} {D : List Nat}

/-! ## The encoder (R143) -/

theorem gatherBlock_succ (n val : Nat) (P : List Byte) :
    gatherBlock (n + 1) val P = gatherBlock n (val * 2 ^ 8 + (P.getD 0 0x00#8).toNat) P.tail := by
  cases P with
  | nil => simp [gatherBlock, Nat.shiftLeft_eq]
  | cons v P =>
    rw [gatherBlock, ← Nat.shiftLeft_add_eq_or_of_lt v.isLt, Nat.shiftLeft_eq]
    rfl

theorem gatherBlock_four (P : List Byte) : gatherBlock 4 0 P = blockAt P 0 := by
  simp only [gatherBlock_succ, gatherBlock, blockAt, blockValue, List.getD_eq_getElem?_getD, List.getElem?_tail]
  ring

theorem blockSymbols_five (table : List Byte) (v : Nat) :
    blockSymbols table 5 v [] = symbols table (blockDigits v) := rfl

/-- The filled payload is its first block, filled, and then the filled rest. -/
theorem zeroFilled_of_ne_nil (hP : P ≠ []) :
    zeroFilled P =
      P.getD 0 0x00#8 :: P.getD 1 0x00#8 :: P.getD 2 0x00#8 :: P.getD 3 0x00#8 :: zeroFilled (P.drop 4) := by
  match P, hP with
  | [_], _ | [_, _], _ | [_, _, _], _ => simp [zeroFilled_eq, List.replicate_succ]
  | _ :: _ :: _ :: _ :: _, _ => simp [zeroFilled_eq, Nat.add_assoc]

theorem payloadDigits_zeroFilled (hP : P ≠ []) :
    payloadDigits (zeroFilled P) = blockDigits (blockAt P 0) ++ payloadDigits (zeroFilled (P.drop 4)) := by
  rw [zeroFilled_of_ne_nil hP, payloadDigits]
  rfl

theorem block85Encode_eq (table : List Byte) (h : P.length ≤ n) :
    block85Encode table n P = symbols table (payloadDigits (zeroFilled P)) := by
  induction n generalizing P with
  | zero =>
    obtain rfl := List.length_eq_zero_iff.mp (Nat.le_zero.mp h)
    rfl
  | succ n ih =>
    by_cases hP : P = []
    · subst hP
      rfl
    · have hrest : (P.drop 4).length ≤ n := by
        rw [List.length_drop]
        omega
      rw [block85Encode, if_neg (by simpa using hP), blockSymbols_five, gatherBlock_four, ih hrest,
        payloadDigits_zeroFilled hP]
      exact List.map_append.symm

/-! ## The decoder (R144) -/

theorem cleaned_cons_of_whitespace {c : Byte} (hc : WS85.contains c = true) (T : List Byte) :
    cleaned (c :: T) = cleaned T := List.filter_cons_of_neg (by rw [hc]; decide)

theorem cleaned_cons_of_not_whitespace {c : Byte} (hc : WS85.contains c = false) (T : List Byte) :
    cleaned (c :: T) = c :: cleaned T := List.filter_cons_of_pos (by rw [hc]; rfl)

/-- The first pass counts the cleaned text. -/
theorem countClean_eq (n : Nat) (T : List Byte) : countClean n T = n + (cleaned T).length := by
  induction T generalizing n with
  | nil => rfl
  | cons c T ih =>
    cases hc : WS85.contains c with
    | true => rw [countClean, hc, if_pos rfl, ih, cleaned_cons_of_whitespace hc]
    | false =>
      rw [countClean, hc, if_neg Bool.false_ne_true, ih, cleaned_cons_of_not_whitespace hc, List.length_cons]
      omega

/-- The registers after one more digit: the fifth digit of a group writes its bytes. -/
def BlockRegs.take (r : BlockRegs) (d : Nat) : BlockRegs :=
  if r.cnt + 1 = 5 then { r with val := 0, cnt := 0, out := r.out ++ valueBytes (accumulate85 r.val d) }
  else { r with val := accumulate85 r.val d, cnt := r.cnt + 1 }

theorem block85DecLoop_cons_of_whitespace {c : Byte} (hc : WS85.contains c = true) (r : BlockRegs) (T : List Byte) :
    block85DecLoop table r (c :: T) = block85DecLoop table r T := by rw [block85DecLoop, if_pos hc]

theorem block85DecLoop_cons_of_foreign {c : Byte} (hc : WS85.contains c = false) (hd : inverse table c = none)
    (r : BlockRegs) (T : List Byte) : block85DecLoop table r (c :: T) = .err .invalidCharacterError := by
  rw [block85DecLoop, hc, if_neg Bool.false_ne_true, hd]

theorem block85DecLoop_cons_of_digit {c : Byte} {d : Nat} (hc : WS85.contains c = false) (hd : inverse table c = some d)
    (r : BlockRegs) (T : List Byte) : block85DecLoop table r (c :: T) = block85DecLoop table (r.take d) T := by
  rw [block85DecLoop, hc, if_neg Bool.false_ne_true, hd, BlockRegs.take]
  exact (apply_ite (block85DecLoop table · T) _ _ _).symm

/-- The second pass takes the digits of the cleaned text, or fails at the first character that has none. -/
theorem block85DecLoop_eq (table T : List Byte) (r : BlockRegs) :
    block85DecLoop table r T =
      (lookupAll table (cleaned T)).elim (.err .invalidCharacterError) fun D =>
        .ok (D.foldl BlockRegs.take r).out := by
  induction T generalizing r with
  | nil => rfl
  | cons c T ih =>
    cases hc : WS85.contains c with
    | true => rw [block85DecLoop_cons_of_whitespace hc, ih, cleaned_cons_of_whitespace hc]
    | false =>
      rw [cleaned_cons_of_not_whitespace hc, lookupAll]
      cases hd : inverse table c with
      | none =>
        rw [block85DecLoop_cons_of_foreign hc hd]
        rfl
      | some d =>
        rw [block85DecLoop_cons_of_digit hc hd, ih]
        cases lookupAll table (cleaned T) <;> rfl

theorem foldl_take_group (n : Nat) (out : List Byte) (d0 d1 d2 d3 d4 : Nat) :
    [d0, d1, d2, d3, d4].foldl BlockRegs.take ⟨0, 0, n, out⟩ =
      ⟨0, 0, n, out ++ valueBytes ([d0, d1, d2, d3, d4].foldl accumulate85 0)⟩ := rfl

/-- From the start of a group on, whole groups of digits write their bytes. -/
theorem foldl_take_out (hD : D.length % 5 = 0) (n : Nat) (out : List Byte) :
    (D.foldl BlockRegs.take ⟨0, 0, n, out⟩).out = out ++ textBytes D := by
  fun_induction textBytes D generalizing out with
  | case1 d0 d1 d2 d3 d4 rest ih =>
    have hrest : rest.length % 5 = 0 := by simpa [Nat.add_assoc] using hD
    show (rest.foldl BlockRegs.take ([d0, d1, d2, d3, d4].foldl BlockRegs.take ⟨0, 0, n, out⟩)).out = _
    rw [foldl_take_group, ih hrest, List.append_assoc]
  | case2 D hshort =>
    match D with
    | [] => simp
    | [_] | [_, _] | [_, _, _] | [_, _, _, _] => simp at hD
    | d0 :: d1 :: d2 :: d3 :: d4 :: rest => exact absurd rfl (hshort d0 d1 d2 d3 d4 rest)

theorem dec85_eq_block85Decode (a : Alphabets) (T : List Byte) : dec85 a T = block85Decode a.alpha85 T := by
  simp only [dec85, block85Decode, countClean_eq, Nat.zero_add, block85DecLoop_eq]
  refine ite_congr rfl (fun _ => rfl) fun hlen => ?_
  cases hD : lookupAll a.alpha85 (cleaned T) with
  | none => rfl
  | some D =>
    have hgroups : D.length % 5 = 0 := by rw [lookupAll_length hD]; omega
    exact congrArg Result.ok (foldl_take_out hgroups _ []).symm

end Sys2Proof.Machine

namespace Sys2Proof

open Machine

/-- Settles O57: the encoder's passes are the payload's blocks, and the decoder's digits those of the cleaned text. -/
theorem blockDatapaths : Obligations.BlockDatapaths := by
  unfold Obligations.BlockDatapaths
  intro a In
  exact ⟨by rw [enc85, block85Encode_eq a.alpha85 le_rfl], dec85_eq_block85Decode a In⟩

end Sys2Proof

/-! The causes of the error kinds and their order (R152 to R157): each function fails for its own causes and for no
other, so the command step reports the first cause that applies. -/

namespace Sys2Proof.Machine

variable {s t : State} {i : Instr} {k : ErrorKind} {a : Alphabets} {cfg : Config} {G b : Nat} {table T : List Byte}

/-! ## The texts that a group decoder rejects (R93, R153 (b), (c)) -/

theorem dataCount_le_of_pad {j : Nat} (h : T[j]? = some PAD) : dataCount T ≤ j := by
  obtain ⟨hdata, -, -⟩ := dataCount_spec T
  exact Nat.le_of_not_lt fun hlt => hdata j hlt h

/-- A text with a pad symbol has its first one at `dataCount`. -/
theorem getElem?_dataCount {j : Nat} (h : T[j]? = some PAD) : T[dataCount T]? = some PAD := by
  obtain ⟨-, -, hpad⟩ := dataCount_spec T
  obtain ⟨hj, -⟩ := List.getElem?_eq_some_iff.mp h
  exact hpad ((dataCount_le_of_pad h).trans_lt hj)

/-- (V1): each byte is a symbol or the pad symbol. -/
theorem symbolOrPad_iff {c : Byte} : (c == PAD || (inverse table c).isSome) = true ↔ ¬ (c ∉ table ∧ c ≠ PAD) := by
  have hsymbol : (inverse table c).isSome = true ↔ c ∈ table := by
    rw [← not_iff_not, ← inverse_none, Bool.not_eq_true, Option.isSome_eq_false_iff, Option.isNone_iff_eq_none]
  rw [Bool.or_eq_true, beq_iff_eq, hsymbol]
  tauto

/-- (V2): only pad symbols from the first one on. -/
theorem onlyPads_iff :
    (∀ c ∈ T.drop (dataCount T), c = PAD) ↔
      ¬ ∃ (j l : Nat) (c : Byte), j < l ∧ T[j]? = some PAD ∧ T[l]? = some c ∧ c ≠ PAD := by
  constructor
  · rintro hpads ⟨j, l, c, hjl, hj, hl, hc⟩
    have hle := dataCount_le_of_pad hj
    refine hc (hpads c (List.mem_of_getElem? (i := l - dataCount T) ?_))
    rw [List.getElem?_drop, Nat.add_sub_of_le (by omega), hl]
  · intro hnone c hc
    by_contra hne
    obtain ⟨m, hm⟩ := List.mem_iff_getElem?.mp hc
    rw [List.getElem?_drop] at hm
    obtain ⟨hlt, -⟩ := List.getElem?_eq_some_iff.mp hm
    obtain ⟨-, -, hfirst⟩ := dataCount_spec T
    have hpad := hfirst (by omega)
    have hpos : m ≠ 0 := by
      rintro rfl
      exact hne (Option.some.inj (hm.symm.trans hpad))
    exact hnone ⟨dataCount T, dataCount T + m, c, by omega, hpad, hm, hne⟩

/-- (V3): the first pad symbol, if there is one, stands in the final group. -/
theorem padsInFinalGroup_iff (hG : 0 < G) :
    (dataCount T < T.length → finalGroupStart G T ≤ dataCount T) ↔
      ¬ ∃ j : Nat, T[j]? = some PAD ∧ j / G < (T.length - 1) / G := by
  constructor
  · rintro hfinal ⟨j, hj, hgroup⟩
    obtain ⟨hlt, -⟩ := List.getElem?_eq_some_iff.mp hj
    have hle := dataCount_le_of_pad hj
    have hstart := hfinal (by omega)
    rw [finalGroupStart_eq G hG T (by omega), Nat.mul_comm, ← Nat.le_div_iff_mul_le hG] at hstart
    exact absurd (hstart.trans (Nat.div_le_div_right hle)) (Nat.not_le.mpr hgroup)
  · intro hnone hlt
    obtain ⟨-, -, hfirst⟩ := dataCount_spec T
    rw [finalGroupStart_eq G hG T (by omega), Nat.mul_comm, ← Nat.le_div_iff_mul_le hG]
    exact Nat.le_of_not_lt fun hgroup => hnone ⟨_, hfirst hlt, hgroup⟩

/-- The validity test of R93 rejects exactly for the causes (b) and (c) of R153. -/
theorem validText_iff (hG : 0 < G) :
    validText G table T = true ↔ ¬ ((∃ c ∈ T, c ∉ table ∧ c ≠ PAD) ∨ MisplacedPad G T) := by
  simp only [validText, Bool.and_eq_true, List.all_eq_true, decide_eq_true_eq, beq_iff_eq, symbolOrPad_iff,
    onlyPads_iff, padsInFinalGroup_iff hG, MisplacedPad]
  push Not
  tauto

theorem decGroup_of_charCause (hG : 0 < G) (h : (∃ c ∈ T, c ∉ table ∧ c ≠ PAD) ∨ MisplacedPad G T) :
    decGroup b G table T = .err .invalidCharacterError := by
  rw [decGroup, if_neg fun hvalid => (validText_iff hG).mp hvalid h]

theorem decGroup_succeeds (hG : 0 < G) (h : ¬ ((∃ c ∈ T, c ∉ table ∧ c ≠ PAD) ∨ MisplacedPad G T)) :
    ∃ out, decGroup b G table T = .ok out := by
  have hvalid := (validText_iff hG).mpr h
  obtain ⟨D, hD⟩ := validText_lookup hvalid
  exact ⟨unpack b D, by rw [decGroup, if_pos hvalid, hD]⟩

/-! ## What makes a function fail (R152, R153) -/

theorem exists_lookupAll_of_no_foreign (h : ¬ ∃ c ∈ T, c ∉ table) : ∃ D, lookupAll table T = some D := by
  push Not at h
  exact exists_lookupAll h

theorem dec85_of_lookup {D : List Nat} (h : (nonWhitespace T).length % 5 = 0)
    (hD : lookupAll a.alpha85 (nonWhitespace T) = some D) : dec85 a T = .ok (textBytes D) := by
  rw [dec85, cleaned_eq_nonWhitespace, if_neg (by omega), hD]

theorem functionOf_of_lengthCause (h : LengthCause i T) : functionOf i a T = .err .lengthError := by
  cases i with
  | dec16 => exact dec16_of_odd h
  | dec85 => exact dec85_of_length h
  | enc16 | enc32 | enc58 | enc62 | enc64 | enc85 => exact h.elim
  | dec32 | dec58 | dec62 | dec64 => exact h.elim

theorem functionOf_of_charCause (h : CharCause i a T) : functionOf i a T = .err .invalidCharacterError := by
  cases i with
  | dec16 => exact dec16_of_foreign h.1 h.2
  | dec32 => exact decGroup_of_charCause (by decide) h
  | dec64 => exact decGroup_of_charCause (by decide) h
  | dec58 => exact dec58_of_foreign h
  | dec62 => exact dec62_of_foreign h
  | dec85 => exact dec85_of_foreign h.1 h.2
  | enc16 | enc32 | enc58 | enc62 | enc64 | enc85 => exact h.elim

/-- With none of the causes of R152 and R153 the function gives a result. -/
theorem functionOf_succeeds (hlen : ¬ LengthCause i T) (hchar : ¬ CharCause i a T) :
    ∃ out, functionOf i a T = .ok out := by
  cases i with
  | enc16 | enc32 | enc58 | enc62 | enc64 | enc85 => exact ⟨_, rfl⟩
  | dec16 =>
    have heven : T.length % 2 = 0 := Nat.mod_two_ne_one.mp hlen
    obtain ⟨D, hD⟩ := exists_lookupAll_of_no_foreign fun hc => hchar ⟨heven, hc⟩
    exact ⟨_, dec16_of_lookup heven hD⟩
  | dec32 => exact decGroup_succeeds (by decide) hchar
  | dec64 => exact decGroup_succeeds (by decide) hchar
  | dec58 =>
    obtain ⟨D, hD⟩ := exists_lookupAll_of_no_foreign hchar
    exact ⟨_, dec58_of_lookup hD⟩
  | dec62 =>
    obtain ⟨D, hD⟩ := exists_lookupAll_of_no_foreign hchar
    exact ⟨_, dec62_of_lookup hD⟩
  | dec85 =>
    have hgroups : (nonWhitespace T).length % 5 = 0 := not_not.mp hlen
    obtain ⟨D, hD⟩ := exists_lookupAll_of_no_foreign fun hc => hchar ⟨hgroups, hc⟩
    exact ⟨_, dec85_of_lookup hgroups hD⟩

theorem functionOf_eq_lengthError_iff : functionOf i a T = .err .lengthError ↔ LengthCause i T := by
  refine ⟨fun h => by_contra fun hlen => ?_, functionOf_of_lengthCause⟩
  by_cases hchar : CharCause i a T
  · cases h.symm.trans (functionOf_of_charCause hchar)
  · obtain ⟨out, hout⟩ := functionOf_succeeds hlen hchar
    cases h.symm.trans hout

theorem functionOf_eq_invalidCharacterError_iff :
    functionOf i a T = .err .invalidCharacterError ↔ CharCause i a T := by
  refine ⟨fun h => by_contra fun hchar => ?_, functionOf_of_charCause⟩
  by_cases hlen : LengthCause i T
  · cases h.symm.trans (functionOf_of_lengthCause hlen)
  · obtain ⟨out, hout⟩ := functionOf_succeeds hlen hchar
    cases h.symm.trans hout

/-! ## What makes a command report a kind (R80, R154) -/

theorem admits_of_no_capacityCause {out : List Byte} (hf : functionOf i cfg.alphabets T = .ok out)
    (h : ¬ CapacityCause i cfg T) :
    admits cfg.accCap (accNeedOf i cfg.alphabets T) = true ∧ admits cfg.obufCap out.length = true := by
  rw [capacityCause_iff hf] at h
  simpa using h

/-- A command reports a kind when the function fails with it, and `ResourceExhaustedError` also when the input, the
accumulator or the result does not fit. -/
theorem exec_status_eq_code_iff (h : exec i s = .next t) :
    t.status = k.code ↔
      (admits s.cfg.ibufCap s.ilen = false ∧ k = .resourceExhaustedError) ∨
      (admits s.cfg.ibufCap s.ilen = true ∧
        (functionOf i s.cfg.alphabets s.input = .err k ∨
          (k = .resourceExhaustedError ∧ CapacityCause i s.cfg s.input))) := by
  have hcode (k' : ErrorKind) : k'.code = k.code ↔ k' = k := ⟨ErrorKind.eq_of_code_eq, congrArg _⟩
  cases hin : admits s.cfg.ibufCap s.ilen with
  | false =>
    obtain rfl := Host.Outcome.next.inj ((exec_of_inputTooLong i hin).symm.trans h)
    simp [hcode, eq_comm]
  | true =>
    cases hf : functionOf i s.cfg.alphabets s.input with
    | err k' =>
      obtain rfl := Host.Outcome.next.inj ((exec_of_err hin hf).symm.trans h)
      have hnone : ¬ CapacityCause i s.cfg s.input := fun ⟨out, hout, _⟩ => by cases hf.symm.trans hout
      simp [hcode, hnone]
    | ok out =>
      by_cases hcap : CapacityCause i s.cfg s.input
      · obtain rfl := Host.Outcome.next.inj ((exec_of_capacityCause hin hcap).symm.trans h)
        simp [hcode, hcap, eq_comm]
      · obtain rfl := Host.Outcome.next.inj
          ((exec_of_ok hf ⟨hin, admits_of_no_capacityCause hf hcap⟩).symm.trans h)
        simp [hcap, statusOk_ne_code]

/-- A function tests no capacity and no tag (R154, R155). -/
theorem functionOf_ne_err (hlen : k ≠ .lengthError) (hchar : k ≠ .invalidCharacterError) :
    functionOf i a T ≠ .err k := fun h => (functionOf_errorKind h).elim hlen hchar

theorem exec_status_eq_lengthError_iff (h : exec i s = .next t) :
    t.status = ErrorKind.lengthError.code ↔ admits s.cfg.ibufCap s.ilen = true ∧ LengthCause i s.input := by
  rw [exec_status_eq_code_iff h, functionOf_eq_lengthError_iff]
  simp

theorem exec_status_eq_invalidCharacterError_iff (h : exec i s = .next t) :
    t.status = ErrorKind.invalidCharacterError.code ↔
      admits s.cfg.ibufCap s.ilen = true ∧ CharCause i s.cfg.alphabets s.input := by
  rw [exec_status_eq_code_iff h, functionOf_eq_invalidCharacterError_iff]
  simp

/-- The three causes of R154. With the input not in the buffer the kind is the same, capacity cause or not. -/
theorem exec_status_eq_resourceExhaustedError_iff (h : exec i s = .next t) :
    t.status = ErrorKind.resourceExhaustedError.code ↔
      admits s.cfg.ibufCap s.ilen = false ∨ CapacityCause i s.cfg s.input := by
  rw [exec_status_eq_code_iff h]
  have hnone := functionOf_ne_err (i := i) (a := s.cfg.alphabets) (T := s.input)
    (k := .resourceExhaustedError) (by decide) (by decide)
  cases admits s.cfg.ibufCap s.ilen <;> simp [hnone]

theorem exec_status_ne_unsupportedFormatError (h : exec i s = .next t) :
    t.status ≠ ErrorKind.unsupportedFormatError.code := by
  rw [ne_eq, exec_status_eq_code_iff h]
  have hnone := functionOf_ne_err (i := i) (a := s.cfg.alphabets) (T := s.input)
    (k := .unsupportedFormatError) (by decide) (by decide)
  simp [hnone]

/-- With none of the causes the command succeeds (R83, R157). -/
theorem exec_status_ok (h : exec i s = .next t) (hin : admits s.cfg.ibufCap s.ilen = true)
    (hlen : ¬ LengthCause i s.input) (hchar : ¬ CharCause i s.cfg.alphabets s.input)
    (hcap : ¬ CapacityCause i s.cfg s.input) : t.status = statusOk := by
  obtain ⟨out, hf⟩ := functionOf_succeeds hlen hchar
  obtain rfl := Host.Outcome.next.inj
    ((exec_of_ok hf ⟨hin, admits_of_no_capacityCause hf hcap⟩).symm.trans h)
  rfl

theorem not_capacityCause_of_unbounded (hobuf : cfg.obufCap = none) (hacc : cfg.accCap = none) :
    ¬ CapacityCause i cfg T := by
  rintro ⟨out, -, h⟩
  simp [hobuf, hacc, admits] at h

/-! ## Legal and illegal tags (R62, R64, R155) -/

theorem exists_commandOf {tag : Nat} (h : tag ∈ RADIXES) (decodes : Bool) : ∃ i, commandOf decodes tag = some i := by
  simp only [RADIXES, List.mem_cons, List.not_mem_nil, or_false] at h
  rcases h with rfl | rfl | rfl | rfl | rfl | rfl <;> exact ⟨_, rfl⟩

theorem exists_decode_iff {w : CmdWord} : (∃ i, decode w = .ok i) ↔ (fmtField w).toNat ∈ RADIXES := by
  refine ⟨fun ⟨i, hi⟩ => fmtField_mem_of_decode hi, fun h => ?_⟩
  obtain ⟨i, hi⟩ := exists_commandOf h (decide (dirField w = 1#1))
  exact ⟨i, decode_eq_ok_iff_commandOf.mpr hi⟩

theorem step_writeCmd_of_decode {w : CmdWord} {rest : List HostMove} (h : s.host = .writeCmd w :: rest)
    (hw : decode w = .ok i) : step s = exec i ((s.setHost rest).setCmd w) :=
  (step_cons h).trans (writeCmd_of_decode (s.setHost rest) hw)

end Sys2Proof.Machine

namespace Sys2Proof

open Machine

/-- Settles O10: the function fails with `LengthError` for these two causes, and nothing else reports the kind. -/
theorem lengthErrorCauses : Obligations.LengthErrorCauses := by
  unfold Obligations.LengthErrorCauses
  intro i s
  obtain ⟨t, ht⟩ := exec_terminates i s
  exact ⟨t, ht, exec_status_eq_lengthError_iff ht⟩

/-- Settles O11: the function fails with `InvalidCharacterError` for these causes, and nothing else reports the
kind. -/
theorem invalidCharacterCauses : Obligations.InvalidCharacterCauses := by
  unfold Obligations.InvalidCharacterCauses
  intro i s
  obtain ⟨t, ht⟩ := exec_terminates i s
  exact ⟨t, ht, exec_status_eq_invalidCharacterError_iff ht⟩

/-- Settles O12: only the command step around the function reports the kind, and only for a capacity. -/
theorem resourceExhaustedCauses : Obligations.ResourceExhaustedCauses := by
  unfold Obligations.ResourceExhaustedCauses
  refine ⟨fun i s => ?_, fun i s t hibuf hobuf hacc h hstatus => ?_⟩
  · obtain ⟨t, ht⟩ := exec_terminates i s
    exact ⟨t, ht, exec_status_eq_resourceExhaustedError_iff ht⟩
  · rcases (exec_status_eq_resourceExhaustedError_iff h).mp hstatus with hin | hcap
    · simp [hibuf, admits] at hin
    · exact not_capacityCause_of_unbounded hobuf hacc hcap

/-- Settles O13: an illegal word fails with the kind, and no command reports it. -/
theorem unsupportedFormatCause : Obligations.UnsupportedFormatCause := by
  unfold Obligations.UnsupportedFormatCause
  intro s w rest h
  by_cases hw : (fmtField w).toNat ∈ RADIXES
  · obtain ⟨i, hi⟩ := exists_decode_iff.mpr hw
    obtain ⟨t, ht⟩ := exec_terminates i ((s.setHost rest).setCmd w)
    exact ⟨t, (step_writeCmd_of_decode h hi).trans ht,
      fun hstatus => absurd hstatus (exec_status_ne_unsupportedFormatError ht), fun hillegal => absurd hw hillegal⟩
  · exact ⟨_, step_writeCmd_illegal h hw, fun _ => hw, fun _ => rfl⟩

/-- Settles O14: each end of the command step reports its cause, and is reached where the earlier ones do not hold. -/
theorem firstCauseIsReported : Obligations.FirstCauseIsReported := by
  unfold Obligations.FirstCauseIsReported
  intro s w rest h
  by_cases hw : (fmtField w).toNat ∈ RADIXES
  · obtain ⟨i, hi⟩ := exists_decode_iff.mpr hw
    obtain ⟨t, ht⟩ := exec_terminates i ((s.setHost rest).setCmd w)
    refine ⟨t, (step_writeCmd_of_decode h hi).trans ht, fun hillegal => absurd hw hillegal, fun j hj => ?_⟩
    obtain rfl := Except.ok.inj (hi.symm.trans hj)
    refine ⟨fun hover => ?inputTooLong, fun hin => ⟨fun hlen => ?length, fun hlen =>
      ⟨fun hchar => ?character, fun hchar => ⟨fun hcap => ?capacity, fun hcap => ?none⟩⟩⟩⟩
    case inputTooLong => exact (exec_status_eq_resourceExhaustedError_iff ht).mpr (.inl hover)
    case length => exact (exec_status_eq_lengthError_iff ht).mpr ⟨hin, hlen⟩
    case character => exact (exec_status_eq_invalidCharacterError_iff ht).mpr ⟨hin, hchar⟩
    case capacity => exact (exec_status_eq_resourceExhaustedError_iff ht).mpr (.inr hcap)
    case none => exact exec_status_ok ht hin hlen hchar hcap
  · refine ⟨_, step_writeCmd_illegal h hw, fun _ => rfl, fun i hi => ?_⟩
    exact absurd (fmtField_mem_of_decode hi) hw

end Sys2Proof

/-! What the host's moves leave alone (R13 to R16, R160): the results of a command, and the input buffer. -/

namespace Sys2Proof.Machine

variable {s t : State}

/-! ## Reads -/

/-- A read by name and index changes nothing of the block, whatever place it reads (R17). -/
theorem readMove_sameBlock {p : Place} (h : hostMove (readMove p) s = .next t) : SameBlock s t := by
  cases p with
  | reg r =>
    obtain rfl := readReg_eq_next.mp h
    exact sameBlock_setRdata s s.host _
  | ibuf i =>
    obtain ⟨-, rfl⟩ := readIbuf_eq_next.mp h
    exact (sameBlock_setRdata s s.host _).drew 1
  | obuf j =>
    obtain ⟨-, rfl⟩ := readObuf_eq_next.mp h
    exact (sameBlock_setRdata s s.host _).drew 1

theorem busRead_sameBlock {addr : Nat} (h : busRead addr s = .next t) : SameBlock s t := by
  rcases busRead_cases addr s with ⟨p, -, hr⟩ | ⟨-, hr⟩
  · exact readMove_sameBlock (hr.symm.trans h)
  · cases hr.symm.trans h

theorem SameBlock.sameResults (h : SameBlock s t) : SameResults s t := by
  obtain ⟨-, -, -, holen, hstatus, -, hobuf⟩ := h
  exact ⟨hstatus.symm, holen.symm, hobuf.symm⟩

theorem SameBlock.ibuf_eq (h : SameBlock s t) : t.ibuf = s.ibuf := by
  obtain ⟨-, -, -, -, -, hibuf, -⟩ := h
  exact hibuf

/-! ## The moves that leave the results alone -/

theorem writeIlen_sameResults {n : Nat} (h : writeIlen n s = .next t) : SameResults s t := by
  obtain ⟨-, rfl⟩ := writeIlen_eq_next.mp h
  exact ⟨rfl, rfl, rfl⟩

theorem writeIbuf_sameResults {i : Nat} {v : Byte} (h : writeIbuf i v s = .next t) : SameResults s t := by
  obtain ⟨-, rfl⟩ := writeIbuf_eq_next.mp h
  exact ⟨rfl, rfl, rfl⟩

theorem writeObuf_sameResults {j : Nat} (h : writeObuf j s = .next t) : SameResults s t := by
  obtain ⟨-, rfl⟩ := writeObuf_eq_next.mp h
  exact ⟨rfl, rfl, rfl⟩

theorem moveResult_sameResults (h : moveResult s = .next t) : SameResults s t := by
  obtain ⟨-, hw⟩ := moveResult_eq_next.mp h
  obtain ⟨-, -, -, holen, hstatus, hobuf, -⟩ := copyBytes_frame s (List.range s.olen)
  obtain ⟨hstatus', holen', hobuf'⟩ := writeIlen_sameResults hw
  exact ⟨hstatus.symm.trans hstatus', holen.symm.trans holen', hobuf.symm.trans hobuf'⟩

/-- A write to a place leaves the results alone, unless `CMD` stands there (R13, R14, R16). -/
theorem writeMove_sameResults {p : Place} {v : Nat} (h : hostMove (writeMove v p) s = .next t) :
    SameResults s t ∨ p = .reg .cmd := by
  cases p with
  | reg r =>
    cases r with
    | cmd => exact .inr rfl
    | ilen => exact .inl (writeIlen_sameResults h)
    | olen | status =>
      cases h
      exact .inl ⟨rfl, rfl, rfl⟩
  | ibuf i => exact .inl (writeIbuf_sameResults h)
  | obuf j => exact .inl (writeObuf_sameResults h)

theorem busWrite_sameResults {addr v : Nat} (h : busWrite addr v s = .next t) :
    SameResults s t ∨ busPlace s.cfg.regmap addr = some (.reg .cmd) := by
  rcases busWrite_cases addr v s with ⟨p, hp, ⟨-, hw⟩ | ⟨-, hw⟩⟩ | ⟨-, hw⟩
  · exact (writeMove_sameResults (hw.symm.trans h)).imp_right fun hcmd => hp.trans (congrArg some hcmd)
  · cases hw.symm.trans h
  · cases hw.symm.trans h

/-- A move leaves the results alone, or it is a reset or a `CMD` write, by name or on the bus (R80, R160). -/
theorem hostMove_sameResults {a : HostMove} (h : hostMove a s = .next t) :
    SameResults s t ∨ a = .reset ∨ (∃ w, a = .writeCmd w) ∨
      ∃ addr v, a = .busWrite addr v ∧ busPlace s.cfg.regmap addr = some (.reg .cmd) := by
  cases a with
  | reset => exact .inr (.inl rfl)
  | writeCmd w => exact .inr (.inr (.inl ⟨w, rfl⟩))
  | busWrite addr v => exact (busWrite_sameResults h).imp_right fun hp => .inr (.inr ⟨addr, v, rfl, hp⟩)
  | writeIlen n => exact .inl (writeIlen_sameResults h)
  | writeIbuf i v => exact .inl (writeIbuf_sameResults h)
  | writeOlen _ | writeStatus _ =>
    cases h
    exact .inl ⟨rfl, rfl, rfl⟩
  | writeObuf j v => exact .inl (writeObuf_sameResults h)
  | readReg r => exact .inl (readMove_sameBlock (p := .reg r) h).sameResults
  | readIbuf i => exact .inl (readMove_sameBlock (p := .ibuf i) h).sameResults
  | readObuf j => exact .inl (readMove_sameBlock (p := .obuf j) h).sameResults
  | busRead addr => exact .inl (busRead_sameBlock h).sameResults
  | move => exact .inl (moveResult_sameResults h)

/-! ## The moves that leave the input buffer alone -/

theorem exec_keeps_ibuf {i : Instr} (h : exec i s = .next t) : t.ibuf = s.ibuf := by
  obtain ⟨n, ⟨k, he⟩ | ⟨out, he⟩⟩ := exec_fails_or_succeeds i s
  all_goals
    obtain rfl := Host.Outcome.next.inj (he.symm.trans h)
    rfl

theorem writeCmd_keeps_ibuf {w : CmdWord} (h : writeCmd w s = .next t) : t.ibuf = s.ibuf := by
  rcases writeCmd_cases w s with ⟨i, -, hw⟩ | ⟨e, -, hw⟩
  · exact (exec_keeps_ibuf (hw.symm.trans h)).trans (State.setCmd_ibuf s w)
  · obtain rfl := Host.Outcome.next.inj (hw.symm.trans h)
    rfl

theorem writeIlen_keeps_ibuf {n : Nat} (h : writeIlen n s = .next t) : t.ibuf = s.ibuf := by
  obtain ⟨-, rfl⟩ := writeIlen_eq_next.mp h
  rfl

theorem writeObuf_keeps_ibuf {j : Nat} (h : writeObuf j s = .next t) : t.ibuf = s.ibuf := by
  obtain ⟨-, rfl⟩ := writeObuf_eq_next.mp h
  rfl

/-- A write to a place leaves `IBUF` alone, unless a byte of it stands there. -/
theorem writeMove_keeps_ibuf {p : Place} {v : Nat} (h : hostMove (writeMove v p) s = .next t) :
    t.ibuf = s.ibuf ∨ ∃ i, p = .ibuf i := by
  cases p with
  | reg r =>
    cases r with
    | cmd => exact .inl (writeCmd_keeps_ibuf h)
    | ilen => exact .inl (writeIlen_keeps_ibuf h)
    | olen | status =>
      cases h
      exact .inl rfl
  | ibuf i => exact .inr ⟨i, rfl⟩
  | obuf j => exact .inl (writeObuf_keeps_ibuf h)

theorem busWrite_keeps_ibuf {addr v : Nat} (h : busWrite addr v s = .next t) :
    t.ibuf = s.ibuf ∨ ∃ i, busPlace s.cfg.regmap addr = some (.ibuf i) := by
  rcases busWrite_cases addr v s with ⟨p, hp, ⟨-, hw⟩ | ⟨-, hw⟩⟩ | ⟨-, hw⟩
  · exact (writeMove_keeps_ibuf (hw.symm.trans h)).imp_right fun ⟨i, hi⟩ => ⟨i, hp.trans (congrArg some hi)⟩
  · cases hw.symm.trans h
  · cases hw.symm.trans h

/-- A move leaves `IBUF` alone, or it is a reset, `MOVE` or a write of an `IBUF` byte, by name or on the bus (R15). -/
theorem hostMove_keeps_ibuf {a : HostMove} (h : hostMove a s = .next t) :
    t.ibuf = s.ibuf ∨ a = .reset ∨ a = .move ∨ (∃ i v, a = .writeIbuf i v) ∨
      ∃ addr v i, a = .busWrite addr v ∧ busPlace s.cfg.regmap addr = some (.ibuf i) := by
  cases a with
  | reset => exact .inr (.inl rfl)
  | move => exact .inr (.inr (.inl rfl))
  | writeIbuf i v => exact .inr (.inr (.inr (.inl ⟨i, v, rfl⟩)))
  | busWrite addr v =>
    exact (busWrite_keeps_ibuf h).imp_right fun ⟨i, hi⟩ => .inr (.inr (.inr ⟨addr, v, i, rfl, hi⟩))
  | writeCmd w => exact .inl (writeCmd_keeps_ibuf h)
  | writeIlen n => exact .inl (writeIlen_keeps_ibuf h)
  | writeOlen _ | writeStatus _ =>
    cases h
    exact .inl rfl
  | writeObuf j v => exact .inl (writeObuf_keeps_ibuf h)
  | readReg r => exact .inl (readMove_sameBlock (p := .reg r) h).ibuf_eq
  | readIbuf i => exact .inl (readMove_sameBlock (p := .ibuf i) h).ibuf_eq
  | readObuf j => exact .inl (readMove_sameBlock (p := .obuf j) h).ibuf_eq
  | busRead addr => exact .inl (busRead_sameBlock h).ibuf_eq

theorem not_sameResults (h : t.status ≠ s.status ∨ t.olen ≠ s.olen ∨ t.obuf ≠ s.obuf) : ¬ SameResults s t := by
  rintro ⟨hstatus, holen, hobuf⟩
  exact h.elim (absurd hstatus.symm) (Or.elim · (absurd holen.symm) (absurd hobuf.symm))

end Sys2Proof.Machine

namespace Sys2Proof

open Machine

/-- Settles O40: an idle step changes nothing, and each move that is not named leaves the field alone. -/
theorem onlyCommandsChangeResults : Obligations.OnlyCommandsChangeResults := by
  unfold Obligations.OnlyCommandsChangeResults
  intro s t h
  cases hhost : s.host with
  | nil =>
    obtain rfl := Host.Outcome.next.inj ((step_nil hhost).symm.trans h)
    exact ⟨fun hchanged => absurd ⟨rfl, rfl, rfl⟩ (not_sameResults hchanged), fun hchanged => absurd rfl hchanged⟩
  | cons a rest =>
    have hmove : hostMove a (s.setHost rest) = .next t := (step_cons hhost).symm.trans h
    exact ⟨fun hchanged => ⟨a, rest, rfl, (hostMove_sameResults hmove).resolve_left (not_sameResults hchanged)⟩,
      fun hchanged => ⟨a, rest, rfl, (hostMove_keeps_ibuf hmove).resolve_left hchanged⟩⟩

end Sys2Proof

/-! Reset (R36, R170): the four registers get their values, no buffer byte has one, and no command runs. -/

namespace Sys2Proof.Machine

theorem step_reset {s : State} {rest : List HostMove} (h : s.host = .reset :: rest) :
    step s = .next (s.setHost rest).applyReset := step_cons h

/-- A word whose tag is no radix is decoded to no command (R64). -/
theorem exists_decode_error {w : CmdWord} (hw : (fmtField w).toNat ∉ RADIXES) : ∃ e, decode w = .error e := by
  cases hd : decode w with
  | ok i => exact absurd (fmtField_mem_of_decode hd) hw
  | error e => exact ⟨e, rfl⟩

/-- The reset value of `CMD` is an illegal word (R64, R170). -/
theorem fmtField_reset_cmd_notMem : (fmtField State.reset.cmd).toNat ∉ RADIXES := by decide

end Sys2Proof.Machine

namespace Sys2Proof

open Machine

/-- Settles O37: the step at a reset only takes the move off and applies the reset, and an empty buffer holds no
byte; the tag of the `CMD` value after power-on is no radix. -/
theorem resetValues : Obligations.ResetValues := by
  unfold Obligations.ResetValues
  constructor
  · intro s rest h
    exact ⟨_, step_reset h, State.applyReset_cmd _, State.applyReset_ilen _, State.applyReset_olen _,
      State.applyReset_status _, Memory.read_nil, Memory.read_nil, State.applyReset_cfg _, State.applyReset_host _⟩
  · exact ⟨rfl, rfl, rfl, rfl, Memory.read_nil, Memory.read_nil, exists_decode_error fmtField_reset_cmd_notMem⟩

end Sys2Proof
